-- ==== Sys2Proof/Word.lean ====
section
/-! DEFINITION. The word types of the engine: 32-bit words (spec/00_scope.md R10), binary32 values held as
their bit patterns (R11, spec/40_numerics.md R130), and bytes for the byte view of a cell
(spec/20_memory.md R74). -/

namespace Sys2Proof

/-- A 32-bit word; bit 0 is the least significant (R10). -/
abbrev Word := BitVec 32

/-- A byte of a cell's byte view (R74). -/
abbrev Byte := BitVec 8

/-- A binary32 value as its bit pattern: sign 31, exponent 30:23, fraction 22:0 (R10, R130).
A register or a cell keeps the exact pattern last written (R49, R71). -/
abbrev F32 := BitVec 32

end Sys2Proof
end

