-- ==== Sys2Proof/Config.lean ====
section
/-! DEFINITION. What one construction of the engine fixes and what no rule fixes: the open parameters of
spec/00_scope.md R8 and spec/92_eei_decisions.md. Every open value is a constant with no body, so nothing
can be proved of it beyond the range its type gives. -/

namespace Sys2Proof

/-- The five coefficients of one stage, normalized so that a0 = 1 (spec/10_state.md R42). -/
structure Coef where
  b0 : F32
  b1 : F32
  b2 : F32
  a1 : F32
  a2 : F32
  deriving DecidableEq, Repr, Inhabited

/-- One draw of a free value: which command of the run (the state's counter), which sample, and which
operation of the sample. Each operation that can produce a NaN has a draw of its own
(spec/40_numerics.md R135: "possibly different at each operation"). -/
structure Draw where
  command : Nat
  sample : Nat
  site : Nat
  deriving DecidableEq, Repr

/-- FREE VALUE. Sign and payload of the NaN an operation produces: `NAN_CHOICE`, "a draw,
unconstrained by any rule" (R135; log entry 3). -/
opaque Config.nanBits : Draw → BitVec 32

/-- FREE VALUE. The choice `POW32` makes among the results its named properties allow, a function of the
two operands alone (spec/40_numerics.md R146; log entry 7). -/
opaque Config.powChoice : F32 → F32 → BitVec 32

/-- FREE VALUE. The choice `TANH32` makes among the results its named properties allow, a function of the
operand alone (spec/40_numerics.md R148; log entry 8). -/
opaque Config.tanhChoice : F32 → BitVec 32

/-- OPEN. The table `COEF[0..6]` that a reset loads, for a given sample rate: any thirty-five patterns
(spec/41_biquad.md R170; log entry 4). -/
opaque Config.coef : F32 → Vector Coef 7

/-- OPEN. The corner or centre frequencies `EQ_FREQ[0..6]`, arguments of the default filling of `COEF`
only (spec/41_biquad.md R168; log entry 17). -/
opaque Config.eqFreq : Fin 7 → F32

/-- OPEN. The Q values `EQ_Q[1..5]` of the peaking stages, arguments of the default filling of `COEF` only
(spec/41_biquad.md R168; log entry 17). -/
opaque Config.eqQ : Fin 7 → F32

/-- FREE VALUE. The five results of a peaking design with these arguments (frequency, rate, Q, gain_db) that has no
real value (spec/41_biquad.md R165, R171; log entry 24). -/
opaque Config.peakingChoice : F32 → F32 → F32 → F32 → Coef

/-- FREE VALUE. The five results of a shelf design with these arguments (frequency, rate, gain_db) that has no real
value (spec/41_biquad.md R171; log entry 24). -/
opaque Config.shelfChoice : F32 → F32 → F32 → Coef

/-- `EQ_GAIN_DB[s]`: 1.0 for every stage ("construction always passes `gain_db=1.0`", R168). -/
def Config.eqGainDb (_stage : Fin 7) : F32 := 0x3F800000

/-- The largest `BUFFER_SIZE`: 2^24 (spec/00_scope.md R8, spec/40_numerics.md R150). -/
def Config.maxBufferSize : Nat := 16777216

/-- OPEN. `BUFFER_SIZE` of the engine `State.reset` describes, less one (log entry 5). -/
opaque Config.bufferSizePred : Fin 16777216

/-- `BUFFER_SIZE` of the engine `State.reset` describes: some integer from 1 to 2^24 (R8). -/
def Config.bufferSize : Nat := Config.bufferSizePred.val + 1

/-- OPEN. `SAMPLE_RATE` of the engine `State.reset` describes, as its pattern less one (log entry 5). The
patterns 0x00000001 to 0x7F7FFFFF are the finite binary32 values above zero. -/
opaque Config.sampleRatePred : Fin 0x7F7FFFFF

/-- `SAMPLE_RATE` of the engine `State.reset` describes: some finite value above zero (R8). -/
def Config.sampleRate : F32 := BitVec.ofNat 32 (Config.sampleRatePred.val + 1)

/-- OPEN. Which region lies lower (log entry 6). -/
opaque Config.inputFirst : Bool

/-- OPEN. Where the lower region starts, in cells, taken modulo the room there is (log entry 6). -/
opaque Config.lowerStart : Nat

/-- OPEN. The distance between the regions, in cells, taken modulo the room there is (log entry 6). -/
opaque Config.gap : Nat

/-- The lower region's first cell number: any place that leaves room for two regions of `n` cells in the
2^30 cells of the address space (spec/20_memory.md R72, R73). -/
def Config.lowerCell (n : Nat) : Nat := Config.lowerStart % (2 ^ 30 - 2 * n + 1)

/-- The upper region's first cell number: any place from the lower region's end on that leaves room for `n` cells. -/
def Config.upperCell (n : Nat) : Nat :=
  Config.lowerCell n + n + Config.gap % (2 ^ 30 - 2 * n - Config.lowerCell n + 1)

/-- `IN_BASE` of the engine `State.reset` describes: any lawful placement (R72, R73). -/
def Config.inBase : Word :=
  BitVec.ofNat 32 (4 * if Config.inputFirst then Config.lowerCell Config.bufferSize else Config.upperCell Config.bufferSize)

/-- `OUT_BASE` of the engine `State.reset` describes: any lawful placement (R72, R73). -/
def Config.outBase : Word :=
  BitVec.ofNat 32 (4 * if Config.inputFirst then Config.upperCell Config.bufferSize else Config.lowerCell Config.bufferSize)

end Sys2Proof
end

