-- ==== Sys2Proof/Machine/Float.lean ====
section
/-! DEFINITION. Binary32 arithmetic (spec/40_numerics.md R130 to R150). Every finite value is an integer number
of units of 2^-149, so each operation computes the exact result over the integers (or as a quotient of
two) and rounds it once, at the end. -/

namespace Sys2Proof.Machine

/-- The sign bit (R10). -/
def F32.neg (a : F32) : Bool := a.msb

/-- The pattern without its sign bit. It orders the magnitudes. -/
def F32.mag (a : F32) : Nat := a.toNat % 2147483648

/-- The magnitude pattern of infinity. -/
def infMag : Nat := 0x7F800000

/-- The magnitude pattern of the largest finite value. -/
def maxFiniteMag : Nat := 0x7F7FFFFF

/-- The magnitude pattern of 1.0. -/
def oneMag : Nat := 0x3F800000

def F32.isNaN (a : F32) : Bool := decide (infMag < F32.mag a)
def F32.isInf (a : F32) : Bool := decide (F32.mag a = infMag)
def F32.isZero (a : F32) : Bool := decide (F32.mag a = 0)
def F32.isFinite (a : F32) : Bool := decide (F32.mag a < infMag)

/-- The value of a finite magnitude pattern, in units of 2^-149: subnormals are the fraction itself, normals
carry the hidden bit (R130, R131). -/
def unitsOfMag (m : Nat) : Nat :=
  if m < 8388608 then m else (8388608 + m % 8388608) * 2 ^ (m / 8388608 - 1)

/-- The magnitude of a finite value in units of 2^-149. -/
def F32.units (a : F32) : Nat := unitsOfMag (F32.mag a)

/-- A finite value as an integer number of units of 2^-149. -/
def F32.toUnits (a : F32) : Int := if F32.neg a then -(F32.units a : Int) else (F32.units a : Int)

/-- The pattern with the given sign and magnitude pattern. -/
def packF32 (neg : Bool) (m : Nat) : F32 := BitVec.ofNat 32 (if neg then 2147483648 + m else m)

/-- The quotient `n / d` rounded to an integer, ties to even (R132). -/
def quotNearestEven (n d : Nat) : Nat :=
  if 2 * (n % d) < d then n / d
  else if d < 2 * (n % d) then n / d + 1
  else if n / d % 2 = 0 then n / d
  else n / d + 1

/-- The quotient `n / d` rounded down. -/
def quotDown (n d : Nat) : Nat := n / d

/-- The quotient `n / d` rounded up. -/
def quotUp (n d : Nat) : Nat := (n + d - 1) / d

/-- The binary exponent at which `n / d` units are rounded: 2^shift units are one unit in the last place. -/
def ulpShift (n d : Nat) : Nat := Nat.log2 (n / d) - 23

/-- The magnitude pattern of `n / d` units of 2^-149, rounded to an integer number of units in the last place
by `rnd`; a magnitude beyond the largest finite value is infinity (R134). -/
def roundMagWith (rnd : Nat → Nat → Nat) (n d : Nat) : Nat :=
  Nat.min infMag (ulpShift n d * 8388608 + rnd n (d * 2 ^ ulpShift n d))

/-- The magnitude pattern nearest `n / d` units of 2^-149, ties to even (R132, R134). -/
def roundMag (n d : Nat) : Nat := roundMagWith quotNearestEven n d

/-- The NaN of draw `d`: some quiet NaN, exponent all ones, fraction bit 22 set; its sign and the other 22
fraction bits are free (R135). -/
def freeNaN (d : Draw) : F32 := (Config.nanBits d &&& 0x803FFFFF#32) ||| 0x7FC00000#32

/-- The value with its sign bit flipped. -/
def fneg (a : F32) : F32 := a ^^^ 0x80000000#32

/-- The finite value nearest `v` units of 2^-149; `zeroNeg` is the sign of an exact zero. -/
def roundUnits (zeroNeg : Bool) (v : Int) : F32 :=
  if v = 0 then packF32 zeroNeg 0 else packF32 (decide (v < 0)) (roundMag v.natAbs 1)

/-- `fadd(a, b)` (R134). An exact zero is -0.0 only when both operands are negative. -/
def fadd (d : Draw) (a b : F32) : F32 :=
  if F32.isNaN a || F32.isNaN b then freeNaN d
  else if F32.isInf a then (if F32.isInf b && F32.neg a != F32.neg b then freeNaN d else a)
  else if F32.isInf b then b
  else roundUnits (F32.neg a && F32.neg b) (F32.toUnits a + F32.toUnits b)

/-- `fsub(a, b)`: the sum of `a` and `b` with its sign flipped (R134). -/
def fsub (d : Draw) (a b : F32) : F32 := fadd d a (fneg b)

/-- `fmul(a, b)` (R134). -/
def fmul (d : Draw) (a b : F32) : F32 :=
  if F32.isNaN a || F32.isNaN b then freeNaN d
  else if (F32.isInf a && F32.isZero b) || (F32.isZero a && F32.isInf b) then freeNaN d
  else if F32.isInf a || F32.isInf b then packF32 (F32.neg a != F32.neg b) infMag
  else packF32 (F32.neg a != F32.neg b) (roundMag (F32.units a * F32.units b) (2 ^ 149))

/-- `fdiv(a, b)` (R134). -/
def fdiv (d : Draw) (a b : F32) : F32 :=
  if F32.isNaN a || F32.isNaN b then freeNaN d
  else if (F32.isInf a && F32.isInf b) || (F32.isZero a && F32.isZero b) then freeNaN d
  else if F32.isInf a || F32.isZero b then packF32 (F32.neg a != F32.neg b) infMag
  else if F32.isInf b then packF32 (F32.neg a != F32.neg b) 0
  else packF32 (F32.neg a != F32.neg b) (roundMag (F32.units a * 2 ^ 149) (F32.units b))

/-- `ROUND(v)`: the nearest integral value, a tie away from zero; always exact, the sign is kept (R142). -/
def fround (d : Draw) (v : F32) : F32 :=
  if F32.isNaN v then freeNaN d
  else if F32.isInf v then v
  else packF32 (F32.neg v) (roundMag ((2 * F32.units v + 2 ^ 149) / 2 ^ 150 * 2 ^ 149) 1)

/-- `FMOD(a, b)`: the exact remainder of the truncated quotient, with the sign of `a`; the sign of `b` never
matters (R144). -/
def fmod (d : Draw) (a b : F32) : F32 :=
  if F32.isNaN a || F32.isNaN b || F32.isInf a || F32.isZero b then freeNaN d
  else if F32.isInf b then a
  else packF32 (F32.neg a) (roundMag (F32.units a % F32.units b) 1)

/-- `I2F(i)`: the sample index as a binary32 value, exact for `i` up to 2^24 (R150). -/
def i2f (i : Nat) : F32 := packF32 false (roundMag (i * 2 ^ 149) 1)

end Sys2Proof.Machine
end

