-- ==== Sys2Proof/Machine/Flags.lean ====
section
/-! DEFINITION. The engine has no condition codes, no status flags written as a side effect of arithmetic and no
floating-point exception flags (spec/10_state.md R33, spec/40_numerics.md R133). What stands in their
place is here: the two comparisons (R140) and the outcome codes of `STATUS` (R37). -/

namespace Sys2Proof.Machine

/-- A number that orders the binary32 values that are not NaN by real value; +0.0 and -0.0 have the same. -/
def F32.key (a : F32) : Int := if F32.neg a then -(F32.mag a : Int) else (F32.mag a : Int)

/-- `a >= b`, false when either operand is NaN (spec/40_numerics.md R140). -/
def fge (a b : F32) : Bool := !F32.isNaN a && !F32.isNaN b && decide (F32.key b ≤ F32.key a)

/-- `a < b`, false when either operand is NaN (spec/40_numerics.md R140). -/
def flt (a b : F32) : Bool := !F32.isNaN a && !F32.isNaN b && decide (F32.key a < F32.key b)

/-- `STATUS` of a command that raises nothing: `OK` (spec/10_state.md R37). -/
def statusOk : BitVec 8 := 0

/-- `STATUS` code of `InvalidArgument` (spec/10_state.md R37, spec/60_exceptions.md R230). -/
def statusInvalidArgument : BitVec 8 := 1

/-- `STATUS` code of `IllegalCommand` (spec/10_state.md R37, spec/60_exceptions.md R230). -/
def statusIllegalCommand : BitVec 8 := 2

end Sys2Proof.Machine
end

