-- ==== Sys2Proof/Syntax.lean ====
section
/-! DEFINITION. The seven commands of spec/30_encoding.md R104 (spec/opcode_table.json), with their
operands. -/

namespace Sys2Proof

/-- One command of the host (spec/00_scope.md R3), with the operand words of its packet, each a
binary32 pattern; all 2^32 patterns are lawful operands (spec/30_encoding.md R103). -/
inductive Instr where
  /-- `PSHIFT`, `process_pitch_shift(pitch_factor)`. -/
  | pshift (pitchFactor : F32)
  /-- `BASS`, `process_bass_boost(boost_db)`. -/
  | bass (boostDb : F32)
  /-- `EQ7`, `process_eq_7band(gains)`: any number of gains from 0 to 255 (R105). -/
  | eq7 (gains : List F32)
  /-- `LOFI`, `process_lo_fi(bit_depth, downsample_factor)`. -/
  | lofi (bitDepth downsampleFactor : F32)
  /-- `COPY`, `copy_to_output()`. -/
  | copy
  /-- `GETIN`, `get_input_address()`. -/
  | getin
  /-- `GETOUT`, `get_output_address()`. -/
  | getout
  deriving DecidableEq, Repr

end Sys2Proof
end

