-- ==== Sys2Proof/Machine/State.lean ====
section
/-! DEFINITION. The state of the engine (spec/10_state.md), the moves the host can make, the reasons a step
can stop, and the state right after reset (R50). -/

namespace Sys2Proof.Machine

/-- The lifecycle register `LIVE` (spec/10_state.md R36). -/
inductive Live where
  /-- Before construction, or after a construction that failed. -/
  | unborn
  /-- After a successful construction and before destruction. -/
  | alive
  /-- After destruction; final (spec/70_reset_and_hazards.md R264, R268). -/
  | dead
  deriving DecidableEq, Repr

/-- The nine registers of one stage of the filter bank (spec/10_state.md R42, R43). -/
structure Biquad where
  b0 : F32
  b1 : F32
  b2 : F32
  a1 : F32
  a2 : F32
  /-- the stage's input one sample ago -/
  x1 : F32
  /-- the stage's input two samples ago -/
  x2 : F32
  /-- the stage's output one sample ago -/
  y1 : F32
  /-- the stage's output two samples ago -/
  y2 : F32
  deriving DecidableEq, Repr

/-- Memory as bytes: (address, byte) pairs in one canonical form, see `Memory.wf`. -/
abbrev Memory := List Host.Cell

/-- What an address that is not listed reads as: "both regions are zero-initialized at construction"
(spec/10_state.md R45; log entry 9). -/
def Memory.unlisted : Byte := 0

/-- The canonical form: addresses strictly rising, no entry equal to what an unlisted address reads as. -/
def Memory.wf : Memory → Bool
  | [] => true
  | (a, v) :: m => decide (v ≠ Memory.unlisted) && m.all (fun c => decide (a < c.1)) && Memory.wf m

/-- One move of the host, or of the platform at construction (spec/70_reset_and_hazards.md R276,
spec/30_encoding.md R119). -/
inductive HostMove where
  /-- `RESET n, r` (R260). `place` is the platform's answer: the bases of the two regions it provides, or
  none if it cannot provide them. -/
  | reset (n : Nat) (r : F32) (place : Option (Word × Word))
  /-- `DESTROY` (R268). -/
  | destroy
  /-- Words delivered on the command interface, the first a header (spec/30_encoding.md R100, R101). -/
  | packet (words : List Word)
  /-- The host writes `v` at `addr`, in an access of `width` bytes. -/
  | write (addr : Word) (width : Nat) (v : Word)
  /-- The host reads at `addr`, in an access of `width` bytes. -/
  | read (addr : Word) (width : Nat)
  /-- The host reads the cell at `src` and writes what it read to the cell at `dst`: one step of `CHAIN`. -/
  | forward (src dst : Word)
  /-- The host reads `STATUS`. -/
  | readStatus
  /-- The host reads `RESULT`. -/
  | readResult
  deriving DecidableEq, Repr

/-- One thing the host has read (spec/70_reset_and_hazards.md R278). -/
inductive Observation where
  /-- The cell at `addr` read as `v`. -/
  | cell (addr : Word) (v : Word)
  /-- `STATUS` read as `v`. -/
  | status (v : BitVec 8)
  /-- `RESULT` read as `v`. -/
  | result (v : Word)
  deriving DecidableEq, Repr

/-- The whole architectural state (spec/10_state.md R30), and three fields of the model's own. -/
structure State where
  /-- `LIVE` (R36). -/
  live : Live
  /-- `CFG_N`, the number of cells in each region (R34). -/
  cfgN : Nat
  /-- `CFG_SR`, the sample rate (R35). -/
  cfgSR : F32
  /-- `STATUS`, the outcome of the last completed command (R37). -/
  status : BitVec 8
  /-- `RESULT`, the address the last query returned (R38). -/
  result : Word
  /-- `PHASE`, the re-sampler's accumulator (R40). -/
  phase : F32
  /-- `PREV`, the re-sampler's held sample (R41). -/
  prev : F32
  /-- `BQ[0..6]`, the seven stages (R42 to R44): 0 low-shelf, 1 to 5 peaking, 6 high-shelf. -/
  bq : Vector Biquad 7
  /-- `IN_BASE`, the byte address of input cell 0, fixed at reset (spec/20_memory.md R72). -/
  inBase : Word
  /-- `OUT_BASE`, the byte address of output cell 0, fixed at reset (spec/20_memory.md R72). -/
  outBase : Word
  /-- The two regions, as bytes (spec/20_memory.md R70 to R74). -/
  mem : Memory
  /-- MODEL: the moves of the host not yet made, oldest first (log entry 2). -/
  inbox : List HostMove
  /-- MODEL: what the host has read, in the order it read it (spec/70_reset_and_hazards.md R278; log entry 2). -/
  observed : List Observation
  /-- MODEL: the counter that indexes the free NaN bits (spec/40_numerics.md R135; log entry 3). -/
  draws : Nat
  deriving DecidableEq, Repr

/-- Why the machine stops with a fault. -/
inductive Fault where
  /-- Raised by `HostMove.reset` when the platform cannot provide the two regions: "fatal, process aborts — no
  recovery path" (spec/60_exceptions.md R233). SAFE: the engine never comes to life, and no later step exists. -/
  | constructionFailure
  deriving DecidableEq, Repr

/-- Why a step has no meaning: each but the first is a situation the spec calls refused. -/
inductive Refusal where
  /-- Raised only by an arm of `exec` whose instruction has no meaning yet; no arm is such. SAFE. -/
  | notModelled (mnemonic : String)
  /-- Raised by every command, access, read and `DESTROY` while `LIVE` is not `Alive`
  (spec/70_reset_and_hazards.md R262, R268). SAFE: the model stops. -/
  | notAlive
  /-- Raised by a host access that is not one whole cell of a region (spec/20_memory.md R75, R78). SAFE: the model stops. -/
  | notACell
  /-- Raised by `RESET` with `n` or `r` out of range (spec/70_reset_and_hazards.md R261). SAFE: the model stops. -/
  | badResetArguments
  /-- Raised by `RESET` while `LIVE` is not `Unborn` (spec/70_reset_and_hazards.md R260, R264). SAFE: the model stops. -/
  | alreadyConstructed
  /-- Raised by a delivery that is shorter than the packet its header announces
  (spec/93_implementation_defined.md U27). SAFE: the model stops. -/
  | truncatedPacket
  deriving DecidableEq, Repr

/-- A stage as a reset loads it: the coefficients of `COEF[s]` and zero history (spec/10_state.md R50). -/
def Biquad.fresh (c : Coef) : Biquad :=
  { b0 := c.b0, b1 := c.b1, b2 := c.b2, a1 := c.a1, a2 := c.a2, x1 := 0, x2 := 0, y1 := 0, y2 := 0 }

/-- An engine right after a successful reset with `n` cells, sample rate `r`, the given bases and the given
table `COEF` (spec/10_state.md R50, spec/70_reset_and_hazards.md R260). -/
def State.construct (n : Nat) (r : F32) (inBase outBase : Word) (coef : Vector Coef 7) : State :=
  { live := .alive, cfgN := n, cfgSR := r, status := 0, result := 0, phase := 0, prev := 0,
    bq := coef.map Biquad.fresh, inBase := inBase, outBase := outBase, mem := [], inbox := [], observed := [], draws := 0 }

/-- An engine before any reset: `LIVE` is `Unborn` and no other piece of state can be reached (R50, R262);
the values written here are log entry 16's. -/
def State.unborn : State :=
  { State.construct 0 0 0 0 (Vector.replicate 7 ⟨0, 0, 0, 0, 0⟩) with live := .unborn }

/-- The machine right after reset, under the configuration of `Config` (R50). -/
def State.reset : State :=
  State.construct Config.bufferSize Config.sampleRate Config.inBase Config.outBase (Config.coef Config.sampleRate)

end Sys2Proof.Machine
end

