-- ==== Sys2Proof/Machine/Ops.lean ====
section
/-! DEFINITION. The named operations over memory and registers: every read and write of a command or of the host
goes through them. Completing a command, raising an error (the only trap entry, spec/60_exceptions.md R240)
and the per-sample loop are here too. -/

namespace Sys2Proof.Machine

/-! ## Memory, byte by byte and cell by cell -/

/-- The byte at an address. -/
def Memory.readByte (m : Memory) (a : Nat) : Byte :=
  match m with
  | [] => Memory.unlisted
  | (k, v) :: rest => if k = a then v else Memory.readByte rest a

/-- Memory without an entry for an address. -/
def Memory.erase (m : Memory) (a : Nat) : Memory := m.filter fun c => decide (c.1 ≠ a)

/-- Memory with an entry added before the first entry at a higher address. -/
def Memory.insert (m : Memory) (a : Nat) (v : Byte) : Memory :=
  match m with
  | [] => [(a, v)]
  | (k, w) :: rest => if a < k then (a, v) :: (k, w) :: rest else (k, w) :: Memory.insert rest a v

/-- Memory with a byte written; writing what an unlisted address reads as removes the entry. -/
def Memory.writeByte (m : Memory) (a : Nat) (v : Byte) : Memory :=
  if v = Memory.unlisted then Memory.erase m a else Memory.insert (Memory.erase m a) a v

/-- Byte `k` (0 to 3) of a cell: bits 8k+7 to 8k (spec/20_memory.md R74). -/
def byteOf (v : Word) (k : Nat) : Byte := BitVec.ofNat 8 (v.toNat / 256 ^ k)

/-- `MemRead(addr, 4)`: the cell at byte address `a`, little-endian (spec/00_scope.md R12, spec/20_memory.md R74). -/
def Memory.readWord (m : Memory) (a : Nat) : Word :=
  Memory.readByte m (a + 3) ++ Memory.readByte m (a + 2) ++ Memory.readByte m (a + 1) ++ Memory.readByte m a

/-- `MemWrite(addr, 4, v)`: the cell at byte address `a` written, little-endian. -/
def Memory.writeWord (m : Memory) (a : Nat) (v : Word) : Memory :=
  Memory.writeByte
    (Memory.writeByte (Memory.writeByte (Memory.writeByte m a (byteOf v 0)) (a + 1) (byteOf v 1)) (a + 2) (byteOf v 2))
    (a + 3) (byteOf v 3)

/-! ## One update per piece of state -/

def State.setLive (s : State) (v : Live) : State := { s with live := v }
def State.setStatus (s : State) (v : BitVec 8) : State := { s with status := v }
def State.setResult (s : State) (v : Word) : State := { s with result := v }
def State.setPhase (s : State) (v : F32) : State := { s with phase := v }
def State.setPrev (s : State) (v : F32) : State := { s with prev := v }
def State.setBq (s : State) (v : Vector Biquad 7) : State := { s with bq := v }
def State.setMem (s : State) (v : Memory) : State := { s with mem := v }
def State.setInbox (s : State) (v : List HostMove) : State := { s with inbox := v }
/-- The host has read one more thing (spec/70_reset_and_hazards.md R278). -/
def State.observe (s : State) (o : Observation) : State := { s with observed := s.observed ++ [o] }
/-- The next command draws its free values afresh (spec/40_numerics.md R135). -/
def State.nextDraws (s : State) : State := { s with draws := s.draws + 1 }

/-- The cell at a byte address. -/
def State.readCell (s : State) (a : Nat) : Word := Memory.readWord s.mem a

/-- The cell at a byte address written. -/
def State.writeCell (s : State) (a : Nat) (v : Word) : State := s.setMem (Memory.writeWord s.mem a v)

/-! ## The history registers of a stage -/

/-- A stage with its history shifted: `x2 <- x1`, `x1 <- input`, `y2 <- y1`, `y1 <- output`, all at once
(spec/41_biquad.md R161). -/
def Biquad.shift (b : Biquad) (input output : F32) : Biquad :=
  { b with x1 := input, x2 := b.x1, y1 := output, y2 := b.y1 }

/-! ## How a command ends -/

/-- The free value of operation `site` of sample `i` of the command in progress. -/
def State.draw (s : State) (i site : Nat) : Draw := ⟨s.draws, i, site⟩

/-- A command that raises nothing completes: `STATUS <- 0` (spec/10_state.md R37). -/
def complete (s : State) : Host.Outcome State Fault Refusal := .next (s.setStatus statusOk)

/-- A command that computes completes: `STATUS <- 0`, and the next command draws afresh. -/
def completeDrawing (s : State) : Host.Outcome State Fault Refusal := complete s.nextDraws

/-- The two errors a command or the decoder raises (spec/60_exceptions.md R230). -/
inductive ErrorName where
  | invalidArgument
  | illegalCommand
  deriving DecidableEq, Repr

/-- The `STATUS` code of an error (R230). -/
def errorCode : ErrorName → BitVec 8
  | .invalidArgument => statusInvalidArgument
  | .illegalCommand => statusIllegalCommand

/-- `raise X(info)`, the only trap entry (spec/60_exceptions.md R240): "The command ends at once; `STATUS <- code(X)`";
`info` is discarded, nothing is saved, no mode and no other register changes. There is no return from it
(R242): the next command finds the engine as it was. -/
def raise (e : ErrorName) (s : State) : Host.Outcome State Fault Refusal := .next (s.setStatus (errorCode e))

/-! ## The per-sample loop -/

/-- `for i in 0 .. n-1: body i`, in ascending order, one iteration after the other (spec/00_scope.md R12,
spec/10_state.md R32). -/
def forSamples {α : Type} (body : Nat → α → α) : Nat → α → α
  | 0, a => a
  | n + 1, a => body n (forSamples body n a)

end Sys2Proof.Machine
end

