-- ==== Sys2Proof/Machine/Operands.lean ====
section
/-! DEFINITION. The operand forms of the engine. A command's operands are whole packet words
(spec/30_encoding.md R103), so they are the arguments of its constructor. Its memory operands have the one
addressing mode of spec/20_memory.md R81, base plus scaled index. -/

namespace Sys2Proof.Machine

/-- The byte address of cell `i` of the region at `base`: `base + 4*i` (spec/20_memory.md R72, R81). The sum is
a number, not a word: by R72 it never wraps (spec/40_numerics.md R152). -/
def cellAddr (base : Word) (i : Nat) : Nat := base.toNat + 4 * i

/-- The byte address of input cell `i`. -/
def State.inAddr (s : State) (i : Nat) : Nat := cellAddr s.inBase i

/-- The byte address of output cell `i`. -/
def State.outAddr (s : State) (i : Nat) : Nat := cellAddr s.outBase i

/-- `IN[i]` (spec/00_scope.md R12). -/
def State.readIn (s : State) (i : Nat) : F32 := s.readCell (s.inAddr i)

/-- `OUT[i]` (spec/00_scope.md R12). -/
def State.readOut (s : State) (i : Nat) : F32 := s.readCell (s.outAddr i)

/-- `OUT[i] <- v` (spec/00_scope.md R12). -/
def State.writeOut (s : State) (i : Nat) (v : F32) : State := s.writeCell (s.outAddr i) v

/-- Whether a byte address lies in the region of `n` cells at `base`. -/
def inRegion (base : Word) (n a : Nat) : Bool := decide (base.toNat ≤ a) && decide (a < base.toNat + 4 * n)

/-- Whether a byte address is a cell address: one of the two regions' `base + 4*i` (spec/20_memory.md R72). -/
def State.isCellAddr (s : State) (a : Nat) : Bool :=
  (inRegion s.inBase s.cfgN a && decide ((a - s.inBase.toNat) % 4 = 0)) ||
    (inRegion s.outBase s.cfgN a && decide ((a - s.outBase.toNat) % 4 = 0))

/-- The one access width, in bytes (spec/20_memory.md R76). -/
def cellBytes : Nat := 4

end Sys2Proof.Machine
end

