-- ==== Sys2Proof/Machine/Transcendental.lean ====
section
/-! DEFINITION. `POW32` and `TANH32` (spec/40_numerics.md R146, R148): configuration functions of which only the
named properties are known. Where a property fixes the result, that is the result; elsewhere the result
is a free choice (`Config.powChoice`, `Config.tanhChoice`) among the patterns the properties allow. The bound
POW-NEAR or TANH-NEAR, "within 1 unit in the last place of the exact value", is computed from an enclosure
of the exact value in fixed point with 512 fraction bits (log entries 7 and 8). -/

namespace Sys2Proof.Machine

/-- A fixed-point arithmetic: the number that stands for 1, and how many terms of a series are summed. -/
structure Fixed where
  one : Nat
  terms : Nat
  deriving DecidableEq, Repr

/-- The sum of `f 0` to `f (n-1)`. -/
def sumUpTo (f : Nat → Nat) : Nat → Nat
  | 0 => 0
  | n + 1 => sumUpTo f n + f n

/-- atanh(1/q): the sum of 1 / ((2k+1) q^(2k+1)). -/
def Fixed.atanhRecip (x : Fixed) (q : Nat) : Nat := sumUpTo (fun k => x.one / ((2 * k + 1) * q ^ (2 * k + 1))) x.terms

/-- ln 2 = 2 atanh(1/3). -/
def Fixed.ln2 (x : Fixed) : Nat := 2 * x.atanhRecip 3

/-- ln 10 = 3 ln 2 + 2 atanh(1/9). -/
def Fixed.ln10 (x : Fixed) : Nat := 3 * x.ln2 + 2 * x.atanhRecip 9

/-- The exponential series of `y` from term `k` on, `term` being the term before and `acc` the sum so far. -/
def Fixed.expSeries (x : Fixed) (y : Nat) : Nat → Nat → Nat → Nat → Nat
  | 0, _, _, acc => acc
  | n + 1, k, term, acc => Fixed.expSeries x y n (k + 1) (term * y / (k * x.one)) (acc + term * y / (k * x.one))

/-- e^y for `y` below ln 2. -/
def Fixed.expSmall (x : Fixed) (y : Nat) : Nat := x.expSeries y x.terms 1 x.one x.one

/-- A non-negative rational, `num / den`. -/
structure Ratio where
  num : Nat
  den : Nat
  deriving DecidableEq, Repr

/-- e^y, or e^-y when `neg`: e^y = 2^k e^r with y = k ln 2 + r. -/
def Fixed.expRatio (x : Fixed) (neg : Bool) (y : Nat) : Ratio :=
  if neg then ⟨x.one, x.expSmall (y % x.ln2) * 2 ^ (y / x.ln2)⟩
  else ⟨x.expSmall (y % x.ln2) * 2 ^ (y / x.ln2), x.one⟩

/-- The arithmetic of `POW32` and `TANH32`: 512 fraction bits. The last term of each series is below one unit. -/
def fix512 : Fixed := ⟨2 ^ 512, 170⟩

/-- The relative error granted to the fixed-point arithmetic is 2^-480. -/
def fixSlack : Nat := 2 ^ 480

/-- A lower bound of the exact value that `q` approximates. -/
def Ratio.below (q : Ratio) : Ratio := ⟨q.num * (fixSlack - 1), q.den * fixSlack⟩

/-- An upper bound of the exact value that `q` approximates. -/
def Ratio.above (q : Ratio) : Ratio := ⟨q.num * (fixSlack + 1), q.den * fixSlack⟩

/-- The value in units of 2^-149. -/
def Ratio.inUnits (q : Ratio) : Ratio := ⟨q.num * 2 ^ 149, q.den⟩

/-- The magnitude patterns from `lo` to `hi`. -/
structure MagRange where
  lo : Nat
  hi : Nat
  deriving DecidableEq, Repr

/-- The magnitude patterns within 1 unit in the last place of a value between `low` and `high` (in units of
2^-149): from `low` less one unit in the last place to `high` plus one, and never beyond `cap`. -/
def nearRange (cap : Nat) (low high : Ratio) : MagRange :=
  let ulp := 2 ^ ulpShift high.num high.den
  ⟨roundMagWith quotUp (low.num - ulp * low.den) low.den,
    Nat.min cap (roundMagWith quotDown (high.num + ulp * high.den) high.den)⟩

/-- The pattern of `r` that `choice` picks. It is never above `r.hi`. -/
def MagRange.pick (r : MagRange) (choice : BitVec 32) : Nat :=
  Nat.min r.lo r.hi + choice.toNat % (r.hi - Nat.min r.lo r.hi + 1)

/-- Whether a value between `low` and `high` (in units of 2^-149) lies in the normal range, as POW-NEAR asks. -/
def inNormalRange (low high : Ratio) : Bool :=
  decide (8388608 * low.den ≤ low.num) && decide (high.num ≤ unitsOfMag maxFiniteMag * high.den)

/-- Every magnitude that is not NaN: what POW-POS alone allows. DESIGN CHOICE (log entry 22): "≥ +0.0" is read as a
positive sign, although -0.0 also compares as ≥ +0.0 (R140). -/
def anyNonNegative : MagRange := ⟨0, infMag⟩

/-- An approximation of a^b for finite `b` with |b| at most 151, `lnA` being ln a in fixed point. -/
def powRatio (lnA : Nat) (b : F32) : Ratio := (fix512.expRatio (F32.neg b) (F32.units b * lnA / 2 ^ 149)).inUnits

/-- The results POW-POS and POW-NEAR allow for a^b. -/
def powRange (lnA : Nat) (b : F32) : MagRange :=
  if inNormalRange (powRatio lnA b).below (powRatio lnA b).above then
    nearRange maxFiniteMag (powRatio lnA b).below (powRatio lnA b).above
  else anyNonNegative

/-- The pattern of 1.0. -/
def oneF : F32 := 0x3F800000#32
/-- The pattern of 2.0. -/
def twoF : F32 := 0x40000000#32
/-- The pattern of 10.0. -/
def tenF : F32 := 0x41200000#32
/-- The pattern of 20.0. -/
def twentyF : F32 := 0x41A00000#32
/-- The pattern of 39.0. -/
def thirtyNineF : F32 := 0x421C0000#32
/-- The pattern of 128.0. -/
def f128 : F32 := 0x43000000#32
/-- The pattern of 127.0. -/
def f127 : F32 := 0x42FE0000#32
/-- The pattern of -149.0. -/
def fMinus149 : F32 := 0xC3150000#32
/-- The pattern of -151.0. -/
def fMinus151 : F32 := 0xC3170000#32
/-- The pattern of -39.0. -/
def fMinus39 : F32 := 0xC21C0000#32

/-- Whether a finite value is an integer. -/
def F32.isIntegral (a : F32) : Bool := decide (F32.units a % 2 ^ 149 = 0)

/-- 2^k for an integral `k` with -149 ≤ k ≤ 127, exactly (POW-2INT). -/
def powTwoInt (k : F32) : F32 :=
  packF32 false (roundMag (2 ^ (F32.toUnits k / 2 ^ 149 + 149).toNat) 1)

/-- `POW32(2.0, b)` for `b` neither a zero nor NaN (spec/40_numerics.md R146). Never -0.0, by the model's choice (log
entry 22). -/
def powOfTwo (b : F32) : F32 :=
  if fge b f128 then packF32 false infMag
  else if fge fMinus151 b then packF32 false 0
  else if F32.isIntegral b && fge b fMinus149 && fge f127 b then powTwoInt b
  else packF32 false ((powRange fix512.ln2 b).pick (Config.powChoice twoF b))

/-- `POW32(10.0, b)` for `b` neither a zero nor NaN (spec/40_numerics.md R146). Below -39.0 the exact power is
below the normal range, and only POW-POS holds. Never -0.0, by the model's choice (log entry 22). -/
def powOfTen (b : F32) : F32 :=
  if fge b thirtyNineF then packF32 false infMag
  else if F32.isInf b then packF32 false 0
  else if b = oneF then tenF
  else if fge fMinus39 b then packF32 false (anyNonNegative.pick (Config.powChoice tenF b))
  else packF32 false ((powRange fix512.ln10 b).pick (Config.powChoice tenF b))

/-- `POW32(a, b)` (R146): 1.0 when `b` is a zero, "NaN included" (POW-ZERO); otherwise NaN when an operand is NaN
(POW-NAN, R135). The engine calls it with a = 2.0 or a = 10.0 only; for another base no property is named and
the result is free. -/
def pow32 (d : Draw) (a b : F32) : F32 :=
  if F32.isZero b then oneF
  else if F32.isNaN a || F32.isNaN b then freeNaN d
  else if a = twoF then powOfTwo b
  else if a = tenF then powOfTen b
  else Config.powChoice a b

/-- (E - 1) / (E + 1), in units of 2^-149. -/
def tanhOfExp (e : Ratio) : Ratio := Ratio.inUnits ⟨e.num - e.den, e.num + e.den⟩

/-- e^(2|v|) for a finite `v` with |v| below 10. -/
def tanhExp (v : F32) : Ratio := fix512.expRatio false (F32.units v * 2 ^ 364)

/-- The magnitudes TANH-NEAR and TANH-RANGE allow for tanh |v|, for a finite `v` with |v| below 10. -/
def tanhRange (v : F32) : MagRange :=
  nearRange oneMag (tanhOfExp (tanhExp v).below) (tanhOfExp (tanhExp v).above)

/-- `TANH32(v)` (R148): zero at zero, ±1.0 from |v| = 10.0 on, and otherwise a free choice among the patterns of
the sign of `v` that TANH-NEAR and TANH-RANGE allow. -/
def tanh32 (d : Draw) (v : F32) : F32 :=
  if F32.isNaN v then freeNaN d
  else if F32.isZero v then v
  else if F32.mag tenF ≤ F32.mag v then packF32 (F32.neg v) oneMag
  else packF32 (F32.neg v) ((tanhRange v).pick (Config.tanhChoice v))

end Sys2Proof.Machine
end

