-- ==== Sys2Proof/Machine/BassBoost.lean ====
section
/-! DEFINITION. `BASS`, broadband gain and saturation (spec/43_bass_boost.md). -/

namespace Sys2Proof.Machine

/-- The boost factor `POW32(10.0, fdiv(db, 20.0))`, a value of the command only (spec/43_bass_boost.md R191). -/
def bassFactor (db : F32) (s : State) : F32 := pow32 (s.draw 0 1) tenF (fdiv (s.draw 0 0) db twentyF)

/-- One iteration of `BASS`: `OUT[i] <- TANH32(fmul(IN[i], bf))` (R191). -/
def bassSample (bf : F32) (i : Nat) (s : State) : State :=
  s.writeOut i (tanh32 (s.draw i 3) (fmul (s.draw i 2) (s.readIn i) bf))

/-- `BASS db` (R191). It raises nothing. -/
def execBass (db : F32) (s : State) : Host.Outcome State Fault Refusal :=
  completeDrawing (forSamples (bassSample (bassFactor db s)) s.cfgN s)

end Sys2Proof.Machine
end

