-- ==== Sys2Proof/Machine/CopyAccess.lean ====
section
/-! DEFINITION. `COPY`, `GETIN` and `GETOUT` (spec/46_copy_and_access.md). -/

namespace Sys2Proof.Machine

/-- One iteration of `COPY`: 32 bits, not interpreted (spec/46_copy_and_access.md R221). -/
def copySample (i : Nat) (s : State) : State := s.writeOut i (s.readIn i)

/-- `COPY` (R221). -/
def execCopy (s : State) : Host.Outcome State Fault Refusal := complete (forSamples copySample s.cfgN s)

/-- `GETIN`: `RESULT <- IN_BASE` (R223). -/
def execGetin (s : State) : Host.Outcome State Fault Refusal := complete (s.setResult s.inBase)

/-- `GETOUT`: `RESULT <- OUT_BASE` (R224). -/
def execGetout (s : State) : Host.Outcome State Fault Refusal := complete (s.setResult s.outBase)

end Sys2Proof.Machine
end

