-- ==== Sys2Proof/Machine/Equalizer.lean ====
section
/-! DEFINITION. The biquad cell, the seven-stage cascade (spec/41_biquad.md) and `EQ7` (spec/44_eq7.md). -/

namespace Sys2Proof.Machine

/-- The free value of operation `op` of stage `k` at sample `i`. -/
def State.biquadDraw (s : State) (i : Nat) (k : Fin 7) (op : Nat) : Draw := s.draw i (16 * k.val + op)

/-- The output of a cell: `b0*input + b1*x1 + b2*x2 - a1*y1 - a2*y2`, five products and then the sum from left to
right, no operation fused (spec/41_biquad.md R161, spec/40_numerics.md R136). `d` gives each of the nine
operations its draw. -/
def biquadOutput (d : Nat → Draw) (b : Biquad) (input : F32) : F32 :=
  fsub (d 8)
    (fsub (d 7)
      (fadd (d 6)
        (fadd (d 5) (fmul (d 0) b.b0 input) (fmul (d 1) b.b1 b.x1))
        (fmul (d 2) b.b2 b.x2))
      (fmul (d 3) b.a1 b.y1))
    (fmul (d 4) b.a2 b.y2)

/-- `BIQUAD(s, input)`: the output and the state with the stage's history shifted (spec/41_biquad.md R161). -/
def biquadStep (i : Nat) (k : Fin 7) (v : F32 × State) : F32 × State :=
  let out := biquadOutput (v.2.biquadDraw i k) v.2.bq[k] v.1
  (out, v.2.setBq (v.2.bq.set k (v.2.bq[k].shift v.1 out)))

/-- The stages in their fixed order: low-shelf, band1 to band5, high-shelf (spec/10_state.md R44). -/
def stageOrder : List (Fin 7) := [0, 1, 2, 3, 4, 5, 6]

/-- `BANK(v)`: one sample through all seven stages in series, each stage's input the previous stage's output
(spec/41_biquad.md R163). -/
def bank (i : Nat) (v : F32) (s : State) : F32 × State :=
  stageOrder.foldl (fun acc k => biquadStep i k acc) (v, s)

/-- One iteration of `EQ7`: `OUT[i] <- BANK(IN[i])` (spec/44_eq7.md R202). -/
def eq7Sample (i : Nat) (s : State) : State :=
  let r := bank i (s.readIn i) s
  r.2.writeOut i r.1

/-- The number of gains `EQ7` asks for (spec/44_eq7.md R201). -/
def eq7Gains : Nat := 7

/-- `EQ7 gains`: with a count other than 7 it raises `InvalidArgument` before anything else (R201); with 7 it runs
the filter bank over the block (R202), whatever the gains are (R203). -/
def execEq7 (gains : List F32) (s : State) : Host.Outcome State Fault Refusal :=
  if gains.length ≠ eq7Gains then raise .invalidArgument s
  else completeDrawing (forSamples eq7Sample s.cfgN s)

end Sys2Proof.Machine
end

