-- ==== Sys2Proof/Machine/LoFi.lean ====
section
/-! DEFINITION. `LOFI`, the bit-crusher and downsampler (spec/45_lofi.md). -/

namespace Sys2Proof.Machine

/-- The quantization levels `fsub(POW32(2.0, bd), 1.0)`, a value of the command only (spec/45_lofi.md R211). -/
def lofiLevels (bd : F32) (s : State) : F32 := fsub (s.draw 0 1) (pow32 (s.draw 0 0) twoF bd) oneF

/-- The quantizer `fdiv(ROUND(fmul(x, levels)), levels)` (R211, R212). -/
def lofiQuantize (levels x : F32) (i : Nat) (s : State) : F32 :=
  fdiv (s.draw i 4) (fround (s.draw i 3) (fmul (s.draw i 2) x levels)) levels

/-- The downsample decision `FMOD(I2F(i), dsf) < 1.0`, false when the remainder is NaN (R211, R214). -/
def lofiFresh (dsf : F32) (i : Nat) (s : State) : Bool := flt (fmod (s.draw i 5) (i2f i) dsf) oneF

/-- One iteration of `LOFI`: fresh, or hold the cell the iteration before wrote, or +0.0 where there is none (R211). -/
def lofiSample (levels dsf : F32) (i : Nat) (s : State) : State :=
  if lofiFresh dsf i s then s.writeOut i (lofiQuantize levels (s.readIn i) i s)
  else if i = 0 then s.writeOut i 0
  else s.writeOut i (s.readOut (i - 1))

/-- `LOFI bd, dsf` (R211). It raises nothing. -/
def execLofi (bd dsf : F32) (s : State) : Host.Outcome State Fault Refusal :=
  completeDrawing (forSamples (lofiSample (lofiLevels bd s) dsf) s.cfgN s)

end Sys2Proof.Machine
end

