-- ==== Sys2Proof/Machine/PitchShift.lean ====
section
/-! DEFINITION. `PSHIFT`, the pitch-shift re-sampler (spec/42_pitch_shift.md). -/

namespace Sys2Proof.Machine

/-- Step 1: `PHASE <- fadd(PHASE, pf)` (spec/42_pitch_shift.md R181). -/
def pshiftAccumulate (pf : F32) (i : Nat) (s : State) : State := s.setPhase (fadd (s.draw i 0) s.phase pf)

/-- Step 2: if `PHASE >= 1.0`, subtract exactly 1.0, once, and capture the sample; false when `PHASE` is NaN
(R181). -/
def pshiftCorrect (x : F32) (i : Nat) (s : State) : State :=
  if fge s.phase oneF then (s.setPhase (fsub (s.draw i 1) s.phase oneF)).setPrev x else s

/-- Step 3: `fadd(PREV, fmul(fsub(x, PREV), PHASE))`, with the registers as steps 1 and 2 left them (R181). -/
def pshiftInterpolate (x : F32) (i : Nat) (s : State) : F32 :=
  fadd (s.draw i 4) s.prev (fmul (s.draw i 3) (fsub (s.draw i 2) x s.prev) s.phase)

/-- One iteration of `PSHIFT` (R181). -/
def pshiftSample (pf : F32) (i : Nat) (s : State) : State :=
  let x := s.readIn i
  let t := pshiftCorrect x i (pshiftAccumulate pf i s)
  t.writeOut i (pshiftInterpolate x i t)

/-- `PSHIFT pf` (R181). It raises nothing. -/
def execPshift (pf : F32) (s : State) : Host.Outcome State Fault Refusal :=
  completeDrawing (forSamples (pshiftSample pf) s.cfgN s)

end Sys2Proof.Machine
end

