-- ==== Sys2Proof/Machine/Dispatch.lean ====
section
/-! DEFINITION. The meaning of every command, one arm each (spec/30_encoding.md R104). -/

namespace Sys2Proof.Machine

def exec (i : Instr) (s : State) : Host.Outcome State Fault Refusal :=
  match i with
  | .pshift pf => Sys2Proof.Machine.execPshift pf s
  | .bass db => Sys2Proof.Machine.execBass db s
  | .eq7 gains => Sys2Proof.Machine.execEq7 gains s
  | .lofi bd dsf => Sys2Proof.Machine.execLofi bd dsf s
  | .copy => Sys2Proof.Machine.execCopy s
  | .getin => Sys2Proof.Machine.execGetin s
  | .getout => Sys2Proof.Machine.execGetout s

end Sys2Proof.Machine
end

