-- ==== Sys2Proof/WellFormed.lean ====
section
/-! DEFINITION. Which terms of `Instr` are commands the packet format can carry. -/

namespace Sys2Proof

/-- The largest operand count a header can carry: `ARGC_MAX` (spec/00_scope.md R8, spec/30_encoding.md R101). -/
def argcMax : Nat := 255

/-- A command is well formed when its operand count fits the header's 8-bit `argc` field. Only `EQ7` has
a variable count, and "A gain sequence longer than 255 cannot be encoded" (spec/30_encoding.md R105). -/
def WellFormed : Instr → Bool
  | .pshift _ => true
  | .bass _ => true
  | .eq7 gains => decide (gains.length ≤ argcMax)
  | .lofi _ _ => true
  | .copy => true
  | .getin => true
  | .getout => true

end Sys2Proof
end

