-- ==== Sys2Proof/Decode.lean ====
section
/-! DEFINITION. The packet decoder and encoder of spec/30_encoding.md. A packet is a header word
`rsvd[31:16] argc[15:8] op[7:0]` followed by `argc` operand words (R101). -/

namespace Sys2Proof

/-- Why a packet is illegal (spec/30_encoding.md R111). -/
inductive IllegalReason where
  /-- A header with `rsvd` not 0. -/
  | reservedBits
  /-- A header whose `op` selects no command (R110). -/
  | reservedOpcode
  /-- A fixed-count command with another operand count. -/
  | wrongCount
  deriving DecidableEq, Repr

/-- What the decoder makes of a sequence of words that starts at a header; `rest` is what follows the
packet's `1 + argc` words. -/
inductive Decoded where
  /-- The packet is a command. -/
  | command (i : Instr) (rest : List Word)
  /-- The packet is illegal; it is consumed whole all the same (R112). -/
  | illegal (why : IllegalReason) (header : Word) (rest : List Word)
  /-- There is no header, or fewer than `argc` words follow it: not a packet
  (spec/93_implementation_defined.md U27). -/
  | truncated
  deriving DecidableEq, Repr

/-- The bits `hi` down to `lo` of a word, as an unsigned number (R10). -/
def Word.field (w : Word) (hi lo : Nat) : Nat := w.toNat / 2 ^ lo % 2 ^ (hi + 1 - lo)

/-- The header's `rsvd` field, bits 31:16 (R101). -/
def headerRsvd (h : Word) : Nat := Word.field h 31 16

/-- The header's `argc` field, bits 15:8 (R101). -/
def headerArgc (h : Word) : Nat := Word.field h 15 8

/-- The header's `op` field, bits 7:0 (R101). -/
def headerOp (h : Word) : Nat := Word.field h 7 0

/-- The length of the packet a header announces, whatever its opcode and whether or not it is legal (R102). -/
def packetLength (h : Word) : Nat := 1 + headerArgc h

/-- The opcode map (R104): the command that opcode `op` makes of the operand words `args`; the operand
count is the number of words. Steps (4) and (5) of the decode order (R106). -/
def decodeOp (op : Nat) (args : List Word) : Except IllegalReason Instr :=
  match op, args with
  | 0x01, [pf] => .ok (.pshift pf)
  | 0x01, _ => .error .wrongCount
  | 0x02, [db] => .ok (.bass db)
  | 0x02, _ => .error .wrongCount
  | 0x03, gains => .ok (.eq7 gains)
  | 0x04, [bd, dsf] => .ok (.lofi bd dsf)
  | 0x04, _ => .error .wrongCount
  | 0x05, [] => .ok .copy
  | 0x05, _ => .error .wrongCount
  | 0x06, [] => .ok .getin
  | 0x06, _ => .error .wrongCount
  | 0x07, [] => .ok .getout
  | 0x07, _ => .error .wrongCount
  | _, _ => .error .reservedOpcode

/-- The decoder, in the order of R106: take the operands, test `rsvd`, then `op`, then `argc`. It is total. -/
def decode (ws : List Word) : Decoded :=
  match ws with
  | [] => .truncated
  | h :: tail =>
    if tail.length < headerArgc h then .truncated
    else if headerRsvd h ≠ 0 then .illegal .reservedBits h (tail.drop (headerArgc h))
    else
      match decodeOp (headerOp h) (tail.take (headerArgc h)) with
      | .ok i => .command i (tail.drop (headerArgc h))
      | .error why => .illegal why h (tail.drop (headerArgc h))

/-- A header with `rsvd` = 0 (R101). -/
def header (argc op : Nat) : Word := BitVec.ofNat 32 (argc * 256 + op)

/-- The opcode of a command (R104). -/
def opcodeOf : Instr → Nat
  | .pshift _ => 0x01
  | .bass _ => 0x02
  | .eq7 _ => 0x03
  | .lofi _ _ => 0x04
  | .copy => 0x05
  | .getin => 0x06
  | .getout => 0x07

/-- The operand words of a command, in order (R103, R104). -/
def operandsOf : Instr → List Word
  | .pshift pf => [pf]
  | .bass db => [db]
  | .eq7 gains => gains
  | .lofi bd dsf => [bd, dsf]
  | .copy => []
  | .getin => []
  | .getout => []

/-- The packet of a command (R101, R104, R118). -/
def encode (i : Instr) : List Word := header (operandsOf i).length (opcodeOf i) :: operandsOf i

/-- Word `k` of an instruction given as one number: bit 0 of the number is the least significant bit of the
first word, and every bit above `nbits` is 0. -/
def tableWordAt (nbits w k : Nat) : Word := BitVec.ofNat 32 (w % 2 ^ nbits / 2 ^ (32 * k))

/-- The packet that a word of spec/opcode_table.json stands for: its header, and as many operand words
as the header announces. -/
def tablePacket (nbits w : Nat) : List Word :=
  tableWordAt nbits w 0 :: (List.range (headerArgc (tableWordAt nbits w 0))).map fun k => tableWordAt nbits w (k + 1)

/-- The instruction the decoder reads from an instruction whose bits are `w`, numbered as
spec/opcode_table.json numbers them. -/
def decodeTableWord (nbits w : Nat) : Option Instr :=
  match decode (tablePacket nbits w) with
  | .command i _ => some i
  | .illegal _ _ _ => none
  | .truncated => none

end Sys2Proof
end

