-- ==== Sys2Proof/Machine/Interface.lean ====
section
/-! DEFINITION. What the engine does with one move of the host: the command interface (spec/30_encoding.md R100),
host accesses to the regions (spec/20_memory.md R72 to R78), construction and destruction
(spec/70_reset_and_hazards.md R260, R268). -/

namespace Sys2Proof.Machine

/-- Words after a packet stand for the next packet (spec/30_encoding.md R102, R106; log entry 14). -/
def State.pushWords (s : State) (rest : List Word) : State :=
  if rest.isEmpty then s else s.setInbox (.packet rest :: s.inbox)

/-- Words arrive on the command interface of an engine that is `Alive`: the packet at their head is decoded; a command
runs by `run`, an illegal packet raises `IllegalCommand` (spec/30_encoding.md R100, R106, R112). -/
def deliver (run : Instr → State → Host.Outcome State Fault Refusal) (ws : List Word) (s : State) :
    Host.Outcome State Fault Refusal :=
  match decode ws with
  | .command i rest => run i (s.pushWords rest)
  | .illegal _ _ rest => raise .illegalCommand (s.pushWords rest)
  | .truncated => .refused .truncatedPacket

/-- Whether an access of `width` bytes at `addr` is to one whole cell (spec/20_memory.md R75, R76, R78). -/
def State.accessOk (s : State) (addr : Word) (width : Nat) : Bool :=
  decide (width = cellBytes) && s.isCellAddr addr.toNat

/-- The host writes a cell (spec/70_reset_and_hazards.md R276). -/
def hostWrite (addr : Word) (width : Nat) (v : Word) (s : State) : Host.Outcome State Fault Refusal :=
  if s.accessOk addr width then .next (s.writeCell addr.toNat v) else .refused .notACell

/-- The host reads a cell (R276); it sees the value of the latest write (spec/20_memory.md R85). -/
def hostRead (addr : Word) (width : Nat) (s : State) : Host.Outcome State Fault Refusal :=
  if s.accessOk addr width then .next (s.observe (.cell addr (s.readCell addr.toNat))) else .refused .notACell

/-- The host reads one cell and writes what it read to another: one step of `CHAIN` (spec/30_encoding.md R119). -/
def hostForward (src dst : Word) (s : State) : Host.Outcome State Fault Refusal :=
  if s.accessOk src cellBytes && s.accessOk dst cellBytes then
    .next ((s.observe (.cell src (s.readCell src.toNat))).writeCell dst.toNat (s.readCell src.toNat))
  else .refused .notACell

/-- The host reads `STATUS` (R276). -/
def hostReadStatus (s : State) : Host.Outcome State Fault Refusal := .next (s.observe (.status s.status))

/-- The host reads `RESULT` (R276). -/
def hostReadResult (s : State) : Host.Outcome State Fault Refusal := .next (s.observe (.result s.result))

/-- Whether the reset arguments have a meaning: 1 ≤ n ≤ 2^24, r finite and above zero
(spec/70_reset_and_hazards.md R261). -/
def resetArgsOk (n : Nat) (r : F32) : Bool :=
  decide (1 ≤ n) && decide (n ≤ Config.maxBufferSize) && F32.isFinite r && !F32.isZero r && !F32.neg r

/-- Whether two bases place two regions of `n` cells: multiples of 4, no region past 2^32, the two disjoint
(spec/20_memory.md R72, R73). -/
def placementOk (n : Nat) (inB outB : Word) : Bool :=
  decide (inB.toNat % 4 = 0) && decide (outB.toNat % 4 = 0) &&
    decide (inB.toNat + 4 * n ≤ 4294967296) && decide (outB.toNat + 4 * n ≤ 4294967296) &&
    (decide (inB.toNat + 4 * n ≤ outB.toNat) || decide (outB.toNat + 4 * n ≤ inB.toNat))

/-- The engine constructed: every piece of state as R50 says, the host's own record kept
(spec/70_reset_and_hazards.md R260). -/
def constructed (n : Nat) (r : F32) (inB outB : Word) (s : State) : State :=
  { State.construct n r inB outB (Config.coef r) with inbox := s.inbox, observed := s.observed, draws := s.draws }

/-- `RESET n, r` (R260): refused unless the engine is `Unborn` and the arguments are in range; a construction failure
where the platform provides no two lawful regions (spec/60_exceptions.md R233). -/
def hostReset (n : Nat) (r : F32) (place : Option (Word × Word)) (s : State) : Host.Outcome State Fault Refusal :=
  if s.live ≠ .unborn then .refused .alreadyConstructed
  else if !resetArgsOk n r then .refused .badResetArguments
  else
    match place with
    | none => .fault .constructionFailure
    | some (inB, outB) =>
      if placementOk n inB outB then .next (constructed n r inB outB s) else .fault .constructionFailure

/-- `DESTROY` (R268): `LIVE <- Dead`. -/
def hostDestroy (s : State) : Host.Outcome State Fault Refusal := .next (s.setLive .dead)

/-- One move of the host, `s` being the state with the move taken from the inbox. Every move but `RESET` is refused
unless `LIVE` is `Alive` (R262, R268). -/
def hostMove (run : Instr → State → Host.Outcome State Fault Refusal) (m : HostMove) (s : State) :
    Host.Outcome State Fault Refusal :=
  match m with
  | .reset n r place => hostReset n r place s
  | .destroy => if s.live = .alive then hostDestroy s else .refused .notAlive
  | .packet ws => if s.live = .alive then deliver run ws s else .refused .notAlive
  | .write addr width v => if s.live = .alive then hostWrite addr width v s else .refused .notAlive
  | .read addr width => if s.live = .alive then hostRead addr width s else .refused .notAlive
  | .forward src dst => if s.live = .alive then hostForward src dst s else .refused .notAlive
  | .readStatus => if s.live = .alive then hostReadStatus s else .refused .notAlive
  | .readResult => if s.live = .alive then hostReadResult s else .refused .notAlive

/-! ## The host's notation (spec/30_encoding.md R119), for an engine whose bases the host has learnt -/

/-- `WRIN i, v`. DESIGN CHOICE (log entry 23): R119 states no bound on `i`; here and in the three lines below the address
is `base + 4*i` modulo 2^32 for any `i`, and an access is made where that is a cell address, else refused. -/
def wrin (s : State) (i : Nat) (v : F32) : HostMove := .write (BitVec.ofNat 32 (s.inAddr i)) cellBytes v
/-- `WROUT i, v`. -/
def wrout (s : State) (i : Nat) (v : F32) : HostMove := .write (BitVec.ofNat 32 (s.outAddr i)) cellBytes v
/-- `RDIN i`. -/
def rdin (s : State) (i : Nat) : HostMove := .read (BitVec.ofNat 32 (s.inAddr i)) cellBytes
/-- `RDOUT i`. -/
def rdout (s : State) (i : Nat) : HostMove := .read (BitVec.ofNat 32 (s.outAddr i)) cellBytes
/-- `FILLIN v0, v1, ...`. -/
def fillin (s : State) (vs : List F32) : List HostMove := vs.zipIdx.map fun p => wrin s p.2 p.1
/-- `CHAIN`: for i = 0 .. N-1, `WRIN i, (RDOUT i)`. -/
def chain (s : State) : List HostMove :=
  (List.range s.cfgN).map fun i => .forward (BitVec.ofNat 32 (s.outAddr i)) (BitVec.ofNat 32 (s.inAddr i))
/-- A command as the host issues it. -/
def issue (i : Instr) : HostMove := .packet (encode i)
/-- `PASS`: `COPY`. -/
def passThrough : HostMove := issue .copy

end Sys2Proof.Machine
end

