-- ==== Sys2Proof/Machine/Step.lean ====
section
/-! DEFINITION. One step: the oldest move of the inbox. -/

namespace Sys2Proof.Machine

/-- One step of the system. With nothing in the inbox the host does nothing and "the engine holds its state
indefinitely" (spec/70_reset_and_hazards.md R276); otherwise the oldest move is made, a command as one atomic
transition (spec/20_memory.md R87). -/
def step (s : State) : Host.Outcome State Fault Refusal :=
  match s.inbox with
  | [] => .next s
  | m :: rest => hostMove exec m (s.setInbox rest)

/-- `s` with the instruction whose bits are `w` delivered as the next packet on the command interface of an engine that
accepts packets (log entry 15). -/
def State.withFetchWord (s : State) (nbits w : Nat) : State :=
  { s with live := .alive, inbox := .packet (tablePacket nbits w) :: s.inbox }

end Sys2Proof.Machine
end

