-- ==== Sys2Proof/Machine/Design.lean ====
section
/-! DEFINITION. The coefficient design of spec/41_biquad.md R164 to R168: the default filling of `COEF`. A reset loads
the table `Config.coef`, not this (R170: the table, not the formula, is what the model is given); the design
is here so that a claim about the default filling can name it. The designs are functions over the reals,
each result rounded once to binary32 (R164, R170), total "wherever no divisor is zero" (R171); the reals are
approximated with 1536 fraction bits, but for the rational ones (log entry 17). Where a divisor is zero the five
results are free among the infinities and the NaNs (R165), and where an argument is no real number they are free
(log entry 24). -/

namespace Sys2Proof.Machine

/-- The arithmetic of the design: 1536 fraction bits. The last term of each series is below one unit. -/
def designFix : Fixed := ⟨2 ^ 1536, 490⟩

/-- atan(1/q): the alternating sum of 1 / ((2k+1) q^(2k+1)). -/
def Fixed.atanRecip (x : Fixed) (q : Nat) : Nat :=
  sumUpTo (fun k => x.one / ((4 * k + 1) * q ^ (4 * k + 1))) (x.terms / 2) -
    sumUpTo (fun k => x.one / ((4 * k + 3) * q ^ (4 * k + 3))) (x.terms / 2)

/-- π = 16 atan(1/5) - 4 atan(1/239). -/
def Fixed.pi (x : Fixed) : Nat := 16 * x.atanRecip 5 - 4 * x.atanRecip 239

/-- The product of two fixed-point numbers. -/
def Fixed.mul (x : Fixed) (a b : Int) : Int := a * b / (x.one : Int)

/-- The alternating series of the sine and the cosine from `term = y^k / k!` on; `y2` is y². -/
def Fixed.trigSeries (x : Fixed) (y2 : Int) : Nat → Nat → Int → Int → Int
  | 0, _, _, acc => acc
  | n + 1, k, term, acc =>
    Fixed.trigSeries x y2 n (k + 2) (-(x.mul term y2 / (((k + 1) * (k + 2) : Nat) : Int)))
      (acc - x.mul term y2 / (((k + 1) * (k + 2) : Nat) : Int))

/-- sin((π/2)·m/r) for 0 ≤ m ≤ r. The rational sines among them, 0, 1/2 and 1, are exact. -/
def Fixed.sinQuarter (x : Fixed) (m r : Nat) : Int :=
  if m = 0 then 0
  else if 3 * m = r then x.one / 2
  else if m = r then x.one
  else
    let y : Int := ((x.pi * m / (2 * r) : Nat) : Int)
    x.trigSeries (x.mul y y) (x.terms / 2) 1 y y

/-- sin((π/2)·m/r) for any `m`, by quadrants. -/
def Fixed.sinTurn (x : Fixed) (m r : Nat) : Int :=
  if m / r % 4 = 0 then x.sinQuarter (m % r) r
  else if m / r % 4 = 1 then x.sinQuarter (r - m % r) r
  else if m / r % 4 = 2 then -x.sinQuarter (m % r) r
  else -x.sinQuarter (r - m % r) r

/-- `w = 2π·freq/sample_rate`, less whole turns, is (π/2)·m/r with `r` the units of the rate and this `m` (R164);
any finite frequency has one (R171). -/
def designQuarters (freq rate : F32) : Nat :=
  4 * ((if F32.neg rate then -F32.toUnits freq else F32.toUnits freq) % (F32.units rate : Int)).toNat

/-- sin w (R164). -/
def designSin (freq rate : F32) : Int := designFix.sinTurn (designQuarters freq rate) (F32.units rate)

/-- cos w = sin(w + π/2) (R164). -/
def designCos (freq rate : F32) : Int :=
  designFix.sinTurn (designQuarters freq rate + F32.units rate) (F32.units rate)

/-- `gain_db` brought into ±5000 dB. Beyond, all five results of every design, rounded to binary32, are those at 5000 dB:
each has reached an infinity, a zero or the value it tends to, because sin w, 1 - cos w and 1 + cos w of binary32
arguments are 0 or at least 2^-553, and 1/(2·Q) lies between 2^-129 and 2^148 (log entry 17). -/
def designGainDb (gainDb : F32) : F32 :=
  if 0x459C4000 < F32.mag gainDb then packF32 (F32.neg gainDb) 0x459C4000 else gainDb

/-- 10^(gain_db/den): `gain` with den = 20 (R164), its square root with den = 40 (R166). -/
def designGain (gainDb : F32) (den : Nat) : Int :=
  let e := designFix.expRatio (F32.neg gainDb) (F32.units gainDb * designFix.ln10 / (den * 2 ^ 149))
  ((e.num * designFix.one / e.den : Nat) : Int)

/-- num / den rounded once to binary32. DESIGN CHOICE (log entry 21): R170 does not say which zero a coefficient of exact
real value 0 becomes; here it is +0.0. A value too small for binary32 becomes the zero of its sign. -/
def designRound (num den : Int) : F32 :=
  if num = 0 then 0 else packF32 (decide (num < 0) != decide (den < 0)) (roundMag (num.natAbs * 2 ^ 149) den.natAbs)

/-- The five results of a design, each divided by a0 ("a0 folded out, not stored", R164); none where a0 is 0. The six
values may have any common factor. -/
def designRow (b0 b1 b2 a0 a1 a2 : Int) : Option Coef :=
  if a0 = 0 then none
  else some ⟨designRound b0 a0, designRound b1 a0, designRound b2 a0, designRound a1 a0, designRound a2 a0⟩

/-- A frequency and a rate that are real numbers, the rate not zero: w has a value (R164, R171). -/
def designAngleOk (freq rate : F32) : Bool := F32.isFinite freq && F32.isFinite rate && !F32.isZero rate

/-- The `k` with gain_db = 20·k, where there is one: then gain is exactly 10^k, and otherwise it is irrational. -/
def designDecade (gainDb : F32) : Option Int :=
  if F32.units gainDb % (20 * 2 ^ 149) = 0 then some (F32.toUnits gainDb / (20 * 2 ^ 149)) else none

/-- The `h` with sin w = h/2, where there is one: the rational sines, which the arithmetic holds exactly. -/
def designHalves (sine : Int) : Option Int :=
  if sine * 2 % (designFix.one : Int) = 0 then some (sine * 2 / (designFix.one : Int)) else none

/-- The row of R165 where sin w = h/2 and gain = 10^k: alpha = h/(4·Q), and every value but cos w is rational. All six
values are multiplied by 4·Q·10^|k|, so none but cos w is approximated, and an exact tie rounds to even. -/
def peakingRational (h k cosW : Int) (q : F32) : Option Coef :=
  let one : Int := designFix.one
  let up : Int := 10 ^ k.toNat
  let down : Int := 10 ^ (-k).toNat
  let m := 4 * F32.toUnits q * up * down
  let a := h * 2 ^ 149
  designRow (one * (m + a * up * up)) (-2 * cosW * m) (one * (m - a * up * up))
    (one * (m + a * down * down)) (-2 * cosW * m) (one * (m - a * down * down))

/-- The row of R165 where sin w or gain is irrational. -/
def peakingIrrational (sine cosW gain : Int) (q : F32) : Option Coef :=
  let one : Int := designFix.one
  let alpha := sine * 2 ^ 149 / (2 * F32.toUnits q)
  let up := designFix.mul alpha gain
  let down := alpha * one / gain
  designRow (one + up) (-2 * cosW) (one - up) (one + down) (-2 * cosW) (one - down)

/-- `PEAKING(freq, sample_rate, Q, gain_db)` over the reals (R165); none where it has no real value. -/
def realPeaking (freq rate q gainDb : F32) : Option Coef :=
  if !designAngleOk freq rate || !F32.isFinite q || F32.isZero q || !F32.isFinite gainDb then none
  else
    let db := designGainDb gainDb
    let sine := designSin freq rate
    let cosW := designCos freq rate
    match designHalves sine, designDecade db with
    | some h, some k => peakingRational h k cosW q
    | _, _ => peakingIrrational sine cosW (designGain db 20) q

/-- Each coefficient some infinity or some NaN: its exponent all ones, its other bits as in `c`. -/
def infinityOrNaN (c : Coef) : Coef :=
  ⟨c.b0 ||| 0x7F800000#32, c.b1 ||| 0x7F800000#32, c.b2 ||| 0x7F800000#32, c.a1 ||| 0x7F800000#32, c.a2 ||| 0x7F800000#32⟩

/-- `PEAKING(freq, sample_rate, Q, gain_db)` (R165): the real values, rounded. "Q = 0, gain = 0, or a0 = 0 make a
division by zero; ... the resulting coefficients are infinities or NaN"; gain is 0 at gain_db = -inf. Where an
argument is no real number otherwise, the five results are free. -/
def designPeaking (freq rate q gainDb : F32) : Coef :=
  match realPeaking freq rate q gainDb with
  | some c => c
  | none =>
    if designAngleOk freq rate && F32.isFinite q && (F32.isFinite gainDb || decide (gainDb = 0xFF800000#32)) then
      infinityOrNaN (Config.peakingChoice freq rate q gainDb)
    else Config.peakingChoice freq rate q gainDb

/-- `LOWSHELF(freq, sample_rate, gain_db)` over the reals (R166); its six formulas are general knowledge, not the
source's. Its a0 is never 0: it is 2·A·cos²(w/2) + 2·sin²(w/2) + 2·sqrt(A)·sin(w/2)·cos(w/2) with A above 0. None
where an argument is no real number. -/
def realLowShelf (freq rate gainDb : F32) : Option Coef :=
  if !designAngleOk freq rate || !F32.isFinite gainDb then none
  else
    let db := designGainDb gainDb
    let a := designGain db 20
    let one : Int := designFix.one
    let cosW := designCos freq rate
    let ba2 := designFix.mul (designGain db 40) (designSin freq rate)
    designRow (designFix.mul a ((a + one) - designFix.mul (a - one) cosW + ba2))
      (2 * designFix.mul a ((a - one) - designFix.mul (a + one) cosW))
      (designFix.mul a ((a + one) - designFix.mul (a - one) cosW - ba2))
      ((a + one) + designFix.mul (a - one) cosW + ba2)
      (-2 * ((a - one) + designFix.mul (a + one) cosW))
      ((a + one) + designFix.mul (a - one) cosW - ba2)

/-- `LOWSHELF(freq, sample_rate, gain_db)` (R166): the real values, rounded; free where there are none. -/
def designLowShelf (freq rate gainDb : F32) : Coef :=
  match realLowShelf freq rate gainDb with
  | some c => c
  | none => Config.shelfChoice freq rate gainDb

/-- `HIGHSHELF` is an alias for `LOWSHELF`, a known approximation that is kept (R167). -/
def designHighShelf (freq rate gainDb : F32) : Coef := designLowShelf freq rate gainDb

/-- The default filling of `COEF[s]` for a sample rate (R168). -/
def designStage (rate : F32) (s : Fin 7) : Coef :=
  if s = 0 then designLowShelf (Config.eqFreq s) rate (Config.eqGainDb s)
  else if s = 6 then designHighShelf (Config.eqFreq s) rate (Config.eqGainDb s)
  else designPeaking (Config.eqFreq s) rate (Config.eqQ s) (Config.eqGainDb s)

end Sys2Proof.Machine
end

