-- ==== Sys2Proof/Safety.lean ====
section
/-! DEFINITION. What holds of every state a run can reach, and the premises of spec/70_reset_and_hazards.md R275 in
the terms claims use. -/

namespace Sys2Proof.Machine

/-- P-CONFIG as to the regions: the bases place two disjoint regions of `CFG_N` cells (spec/20_memory.md R72, R73). -/
def State.Placed (s : State) : Prop := placementOk s.cfgN s.inBase s.outBase = true

/-- Every byte memory lists lies in one of the two regions: "The address map is the two regions ... and nothing else"
(spec/20_memory.md R79). -/
def State.Confined (s : State) : Prop :=
  s.mem.all (fun c => inRegion s.inBase s.cfgN c.1 || inRegion s.outBase s.cfgN c.1) = true

/-- The invariant of the machine: memory has its canonical form, `STATUS` is one of its three legal values
(spec/10_state.md R37), and once the engine is constructed its configuration meets R34, R35, R72 and R73 and
memory is confined to its regions. -/
def State.Inv (s : State) : Prop :=
  Memory.wf s.mem = true ∧ s.status.toNat ≤ 2 ∧
    (s.live ≠ .unborn → resetArgsOk s.cfgN s.cfgSR = true ∧ s.Placed ∧ s.Confined)

/-- P-ALIVE (R275). -/
def State.Alive (s : State) : Prop := s.live = .alive

/-- The coefficient registers hold the default filling of `COEF` (spec/41_biquad.md R168, R170). A premise of claims
about the designed response only; no rule promises it. -/
def State.DefaultFilled (s : State) : Prop :=
  ∀ k : Fin 7, designStage s.cfgSR k =
    ⟨s.bq[k].b0, s.bq[k].b1, s.bq[k].b2, s.bq[k].a1, s.bq[k].a2⟩

/-- The output region, cell by cell. -/
def State.outCells (s : State) : List F32 := (List.range s.cfgN).map s.readOut

/-- The input region, cell by cell. -/
def State.inCells (s : State) : List F32 := (List.range s.cfgN).map s.readIn

/-- A byte address outside the output region: where no command may write (spec/20_memory.md R81, R82). -/
def State.OutsideOutput (s : State) (a : Nat) : Prop := inRegion s.outBase s.cfgN a = false

/-- The outcome is a next state, and `P` holds of it. -/
def Completes (o : Host.Outcome State Fault Refusal) (P : State → Prop) : Prop := ∃ t, o = .next t ∧ P t

end Sys2Proof.Machine
end

