-- ==== Sys2Proof/Certificates/Slice0/Obligations.lean ====
section
/-! DEFINITION. The statements of this model, each a proposition about the machine taken from a numbered rule of
spec/. `Reference` holds the list-level functions that the refinement statements compare the machine with. -/

open Sys2Proof Sys2Proof.Machine

/-! ## Reference functions, written from the rules over lists of samples -/

/-- `PSHIFT` over a list of samples from index `i` on: the final `PHASE`, the final `PREV` and the outputs
(spec/42_pitch_shift.md R181). `d i op` is the free value of operation `op` of sample `i`. -/
def Reference.pshift (d : Nat → Nat → Draw) (pf : F32) : Nat → F32 → F32 → List F32 → F32 × F32 × List F32
  | _, phase, prev, [] => (phase, prev, [])
  | i, phase, prev, x :: xs =>
    let sum := fadd (d i 0) phase pf
    let phase' := if fge sum oneF then fsub (d i 1) sum oneF else sum
    let prev' := if fge sum oneF then x else prev
    let out := fadd (d i 4) prev' (fmul (d i 3) (fsub (d i 2) x prev') phase')
    let r := Reference.pshift d pf (i + 1) phase' prev' xs
    (r.1, r.2.1, out :: r.2.2)

/-- One sample through the stages `k`, `k+1`, … in series (spec/41_biquad.md R161, R163): the stages with their
histories shifted, and the last stage's output. -/
def Reference.cascade (d : Nat → Nat → Draw) : Nat → List Biquad → F32 → List Biquad × F32
  | _, [], v => ([], v)
  | k, b :: bs, v =>
    let out := biquadOutput (d k) b v
    let r := Reference.cascade d (k + 1) bs out
    (b.shift v out :: r.1, r.2)

/-- A block sample by sample: each sample passes through all stages before the next enters (spec/44_eq7.md R202). -/
def Reference.sampleMajor (d : Nat → Nat → Nat → Draw) : Nat → List Biquad → List F32 → List Biquad × List F32
  | _, bs, [] => (bs, [])
  | i, bs, x :: xs =>
    let c := Reference.cascade (d i) 0 bs x
    let r := Reference.sampleMajor d (i + 1) c.1 xs
    (r.1, c.2 :: r.2)

/-- One stage over a whole block from sample `i` on. -/
def Reference.stageRun (d : Nat → Nat → Draw) : Nat → Biquad → List F32 → Biquad × List F32
  | _, b, [] => (b, [])
  | i, b, x :: xs =>
    let out := biquadOutput (d i) b x
    let r := Reference.stageRun d (i + 1) (b.shift x out) xs
    (r.1, out :: r.2)

/-- A block stage by stage: stage `k` over the whole block, then stage `k+1` over its results, and so on
(spec/44_eq7.md R202). -/
def Reference.stageMajor (d : Nat → Nat → Nat → Draw) : Nat → List Biquad → List F32 → List Biquad × List F32
  | _, [], xs => ([], xs)
  | k, b :: bs, xs =>
    let c := Reference.stageRun (fun i => d i k) 0 b xs
    let r := Reference.stageMajor d (k + 1) bs c.2
    (c.1 :: r.1, r.2)

/-- The free values of the biquad operations: sample, stage, operation. -/
def Reference.biquadDraws (s : State) (i k op : Nat) : Draw := s.draw i (16 * k + op)

/-- The exact real value of a finite binary32 value is `toUnits` times 2^-149: the distance of a finite `r` from the
rational `n / d` of units, times `d`. -/
def Reference.distance (r : F32) (n : Int) (d : Nat) : Nat := (F32.toUnits r * d - n).natAbs

/-- `r` is the value `n / d` of units, rounded once (spec/40_numerics.md R132, R134): it is not NaN; it is an infinity
exactly from half a unit in the last place above the largest finite value on; where it is finite, every finite value
other than it is farther from `n / d`, or as far while the pattern of `r` is even; it has the sign of `n`, and
the sign `zeroNeg` where `n` is 0; and its magnitude is the `roundMag` of the exact magnitude. -/
def Reference.IsRounded (r : F32) (zeroNeg : Bool) (n : Int) (d : Nat) : Prop :=
  F32.isNaN r = false ∧
  (F32.isInf r = true ↔ 33554431 * 2 ^ 252 * d ≤ n.natAbs) ∧
  (F32.isFinite r = true → ∀ x : F32, F32.isFinite x = true → F32.toUnits x ≠ F32.toUnits r →
    Reference.distance r n d < Reference.distance x n d ∨
    (Reference.distance r n d = Reference.distance x n d ∧ F32.mag r % 2 = 0)) ∧
  F32.neg r = (if n = 0 then zeroNeg else decide (n < 0)) ∧
  F32.mag r = roundMag n.natAbs d

/-! ## Encoding -/

/-- spec/30_encoding.md R121: the example packets decode to the commands they stand for, are what the encoder writes,
and the three illegal ones are illegal; the six-gain `EQ7` is a legal packet that raises `InvalidArgument`. -/
def Obligations.SpecExamplePackets : Prop :=
  decode [0x00000101, 0x3F800000] = .command (.pshift 0x3F800000) [] ∧
  decode [0x00000102, 0x00000000] = .command (.bass 0x00000000) [] ∧
  decode [0x00000204, 0x41000000, 0x40000000] = .command (.lofi 0x41000000 0x40000000) [] ∧
  decode [0x00000005] = .command .copy [] ∧
  decode (0x00000703 :: List.replicate 7 0x3F800000) = .command (.eq7 (List.replicate 7 0x3F800000)) [] ∧
  decode (0x00000603 :: List.replicate 6 0x00000000) = .command (.eq7 (List.replicate 6 0x00000000)) [] ∧
  (∀ s : State, exec (.eq7 (List.replicate 6 0x00000000)) s = .next { s with status := 1 }) ∧
  decode [0x00000105, 0x3F800000] = .illegal .wrongCount 0x00000105 [] ∧
  decode [0x00010005] = .illegal .reservedBits 0x00010005 [] ∧
  decode [0x00000008] = .illegal .reservedOpcode 0x00000008 [] ∧
  encode (.pshift 0x3F800000) = [0x00000101, 0x3F800000] ∧
  encode (.bass 0x00000000) = [0x00000102, 0x00000000] ∧
  encode (.lofi 0x41000000 0x40000000) = [0x00000204, 0x41000000, 0x40000000] ∧
  encode .copy = [0x00000005] ∧
  encode (.eq7 (List.replicate 7 0x3F800000)) = 0x00000703 :: List.replicate 7 0x3F800000

/-- Decoding the packet of any well-formed command gives that command back, with every operand, whatever words follow
(spec/30_encoding.md R101, R103, R104). -/
def Obligations.DecodeOfEncode : Prop :=
  ∀ (i : Instr) (rest : List Word), WellFormed i = true → decode (encode i ++ rest) = .command i rest

/-- Words decode to a command only if they start with that command's packet, and the command is well formed: each
packet has one meaning (spec/30_encoding.md R101, R104). -/
def Obligations.EncodeOfDecode : Prop :=
  ∀ (ws : List Word) (i : Instr) (rest : List Word),
    decode ws = .command i rest → WellFormed i = true ∧ ws = encode i ++ rest

/-- spec/30_encoding.md R111: a header with its operand words is illegal exactly when `rsvd` is not 0, or `op` is
reserved (R110), or a fixed-count opcode has another operand count. -/
def Obligations.IllegalPacketsExactly : Prop :=
  ∀ (h : Word) (tail : List Word), headerArgc h ≤ tail.length →
    ((∃ why rest, decode (h :: tail) = .illegal why h rest) ↔
      headerRsvd h ≠ 0 ∨ (headerOp h = 0x00 ∨ 0x08 ≤ headerOp h) ∨
        (headerOp h = 0x01 ∧ headerArgc h ≠ 1) ∨ (headerOp h = 0x02 ∧ headerArgc h ≠ 1) ∨
        (headerOp h = 0x04 ∧ headerArgc h ≠ 2) ∨ (headerOp h = 0x05 ∧ headerArgc h ≠ 0) ∨
        (headerOp h = 0x06 ∧ headerArgc h ≠ 0) ∨ (headerOp h = 0x07 ∧ headerArgc h ≠ 0))

/-- spec/30_encoding.md R102, R106: the length is 1 + `header[15:8]` words whatever the opcode and whether or not the
packet is legal; with at least that many words the decoder answers a command or "illegal" and leaves the words
after them, and with fewer there is no packet. -/
def Obligations.DecoderConsumesOnePacket : Prop :=
  ∀ (h : Word) (tail : List Word),
    if packetLength h ≤ (h :: tail).length then
      (∃ i, decode (h :: tail) = .command i ((h :: tail).drop (packetLength h))) ∨
        (∃ why, decode (h :: tail) = .illegal why h ((h :: tail).drop (packetLength h)))
    else decode (h :: tail) = .truncated

/-- spec/30_encoding.md R104: with its operand words present, a header selects a row of the opcode map exactly when
`header & mask = match`. -/
def Obligations.HeadersSelectRows : Prop :=
  ∀ (h : Word) (tail : List Word), headerArgc h ≤ tail.length →
    ∀ row ∈ ([(0x01, 0x00000101, 0xFFFFFFFF), (0x02, 0x00000102, 0xFFFFFFFF), (0x03, 0x00000003, 0xFFFF00FF),
        (0x04, 0x00000204, 0xFFFFFFFF), (0x05, 0x00000005, 0xFFFFFFFF), (0x06, 0x00000006, 0xFFFFFFFF),
        (0x07, 0x00000007, 0xFFFFFFFF)] : List (Nat × Word × Word)),
      ((∃ i rest, decode (h :: tail) = .command i rest ∧ opcodeOf i = row.1) ↔ h &&& row.2.2 = row.2.1)

/-! ## One step -/

/-- When the words at the head of the inbox of a live engine decode to a command, the step is `exec` of it at the state
with that delivery taken (and the words after the packet left as the next delivery); and a table word that decodes
to a command is what the next step runs (spec/30_encoding.md R100, R106). -/
def Obligations.StepRunsTheDecodedCommand : Prop :=
  (∀ (s : State) (ws : List Word) (moves : List HostMove) (i : Instr) (rest : List Word),
    s.live = .alive → s.inbox = .packet ws :: moves → decode ws = .command i rest →
      step s = exec i ((s.setInbox moves).pushWords rest)) ∧
  (∀ (s : State) (nbits w : Nat) (i : Instr),
    decodeTableWord nbits w = some i → step (s.withFetchWord nbits w) = exec i { s with live := .alive })

/-- spec/30_encoding.md R112: an illegal packet is consumed whole, changes no state but `STATUS` (and the delivery
taken from the inbox), and completes with `STATUS <- 2`. The model's choices: that it completes where R112 also allows
a refusal (log entry 11), and that the words behind the packet are the next delivery (log entries 2 and 14). -/
def Obligations.IllegalPacketSetsStatusOnly : Prop :=
  ∀ (s : State) (ws : List Word) (moves : List HostMove) (why : IllegalReason) (h : Word) (rest : List Word),
    s.live = .alive → s.inbox = .packet ws :: moves → decode ws = .illegal why h rest →
      rest = ws.drop (packetLength h) ∧
      step s = .next { s with status := 2, inbox := if rest = [] then moves else .packet rest :: moves }

/-- spec/70_reset_and_hazards.md R262, R268: unless `LIVE` is `Alive` every command, every access and every read is
refused, `DESTROY` too; and while it is `Alive` a delivery shorter than its packet is. -/
def Obligations.NothingRunsUnlessAlive : Prop :=
  (∀ (s : State) (m : HostMove) (moves : List HostMove),
    s.live ≠ .alive → s.inbox = m :: moves → (∀ n r place, m ≠ .reset n r place) → step s = .refused .notAlive) ∧
  (∀ (s : State) (ws : List Word) (moves : List HostMove),
    s.live = .alive → s.inbox = .packet ws :: moves → decode ws = .truncated → step s = .refused .truncatedPacket)

/-- spec/70_reset_and_hazards.md R276: the host may do nothing for any length of time, and the engine holds its state. -/
def Obligations.IdleEngineHoldsItsState : Prop := ∀ s : State, s.inbox = [] → step s = .next s

/-! ## Reset, destruction, life -/

/-- spec/10_state.md R50, spec/70_reset_and_hazards.md R260: what a successful reset leaves in every piece of state. That
the coefficients are `Config.coef r` and that the host's own record is kept are the model's (log entries 2 and 4). -/
def Obligations.ResetLeavesTheStatedValues : Prop :=
  ∀ (s : State) (n : Nat) (r : F32) (inB outB : Word) (moves : List HostMove),
    s.live = .unborn → s.inbox = .reset n r (some (inB, outB)) :: moves → resetArgsOk n r = true →
    placementOk n inB outB = true →
      Completes (step s) fun t =>
        t.live = .alive ∧ t.cfgN = n ∧ t.cfgSR = r ∧ t.status = 0 ∧ t.result = 0 ∧ t.phase = 0 ∧ t.prev = 0 ∧
        t.inBase = inB ∧ t.outBase = outB ∧
        (∀ k : Fin 7, (⟨t.bq[k].b0, t.bq[k].b1, t.bq[k].b2, t.bq[k].a1, t.bq[k].a2⟩ : Coef) = (Config.coef r)[k] ∧
          t.bq[k].x1 = 0 ∧ t.bq[k].x2 = 0 ∧ t.bq[k].y1 = 0 ∧ t.bq[k].y2 = 0) ∧
        (∀ i, i < n → t.readIn i = 0 ∧ t.readOut i = 0) ∧
        t.inbox = moves ∧ t.observed = s.observed

/-- spec/70_reset_and_hazards.md R261, R264, spec/60_exceptions.md R233: a reset with n = 0, n > 2^24, or r zero,
negative, infinite or NaN is refused; so is a reset of an engine that is not `Unborn`; and where the platform
provides no lawful regions construction fails for good (that it is the model's fault is log entry 12's choice). -/
def Obligations.ResetRefusals : Prop :=
  ∀ (s : State) (n : Nat) (r : F32) (place : Option (Word × Word)) (moves : List HostMove),
    s.inbox = .reset n r place :: moves →
      (s.live ≠ .unborn → step s = .refused .alreadyConstructed) ∧
      (s.live = .unborn →
        ((n = 0 ∨ 16777216 < n ∨ F32.isZero r = true ∨ F32.neg r = true ∨ F32.isInf r = true ∨ F32.isNaN r = true) ↔
          step s = .refused .badResetArguments)) ∧
      (s.live = .unborn → resetArgsOk n r = true → (∀ b, place = some b → placementOk n b.1 b.2 = false) →
        step s = .fault .constructionFailure)

/-- spec/70_reset_and_hazards.md R268: destruction is `LIVE <- Dead`, from `Alive` only. That every other field keeps its
value is the model's choice (log entry 16): R268 says that every register and both regions cease to exist. -/
def Obligations.DestroyEndsTheLife : Prop :=
  ∀ (s : State) (moves : List HostMove), s.inbox = .destroy :: moves →
    step s = if s.live = .alive then .next { s with live := .dead, inbox := moves } else .refused .notAlive

/-- spec/10_state.md R36: only reset moves `LIVE` from `Unborn` to `Alive`, only destruction moves it from `Alive` to
`Dead`, and nothing else moves it. -/
def Obligations.OnlyResetAndDestroyMoveLive : Prop :=
  ∀ s t : State, step s = .next t →
    t.live = s.live ∨
      (s.live = .unborn ∧ t.live = .alive ∧ ∃ n r place moves, s.inbox = .reset n r place :: moves) ∨
      (s.live = .alive ∧ t.live = .dead ∧ ∃ moves, s.inbox = .destroy :: moves)

/-- The state right after reset meets the invariant, whatever the open configuration is (spec/10_state.md R50; that its
arguments and bases are open constants is log entries 5 and 6). The second clause rests on the values the model
chose for the unborn state (log entry 16): R50 says that they are unspecified and unreachable. -/
def Obligations.ResetStateMeetsTheInvariant : Prop := State.reset.Inv ∧ State.unborn.Inv

/-- Every step keeps the invariant: canonical memory, a legal `STATUS`, a lawful configuration and placement, and memory
confined to the two regions (spec/10_state.md R34, R35, R37, spec/20_memory.md R72, R73, R79). -/
def Obligations.EveryStepKeepsTheInvariant : Prop := ∀ s t : State, s.Inv → step s = .next t → t.Inv

/-- spec/10_state.md R34, R35, R42, spec/20_memory.md R72, R92: once the engine is constructed, no step changes `CFG_N`,
`CFG_SR`, the bases or any coefficient register. -/
def Obligations.ConfigurationAndCoefficientsAreFixed : Prop :=
  ∀ s t : State, s.live ≠ .unborn → step s = .next t →
    t.cfgN = s.cfgN ∧ t.cfgSR = s.cfgSR ∧ t.inBase = s.inBase ∧ t.outBase = s.outBase ∧
      ∀ k : Fin 7, t.bq[k].b0 = s.bq[k].b0 ∧ t.bq[k].b1 = s.bq[k].b1 ∧ t.bq[k].b2 = s.bq[k].b2 ∧
        t.bq[k].a1 = s.bq[k].a1 ∧ t.bq[k].a2 = s.bq[k].a2

/-! ## Host accesses -/

/-- spec/20_memory.md R74, R76, R77, R85: a host write to a cell completes; the cell then reads as the value, its byte k
is bits 8k+7 to 8k of it, and every other byte and every register is as before. -/
def Obligations.HostWriteThenRead : Prop :=
  ∀ (s : State) (addr v : Word) (moves : List HostMove),
    s.live = .alive → s.inbox = .write addr 4 v :: moves →
    (∃ i, i < s.cfgN ∧ (addr.toNat = s.inAddr i ∨ addr.toNat = s.outAddr i)) →
      Completes (step s) fun t =>
        t = { s with inbox := moves, mem := t.mem } ∧ t.readCell addr.toNat = v ∧
        (∀ k, k < 4 → Memory.readByte t.mem (addr.toNat + k) = BitVec.ofNat 8 (v.toNat / 256 ^ k)) ∧
        (∀ a, (a < addr.toNat ∨ addr.toNat + 4 ≤ a) → Memory.readByte t.mem a = Memory.readByte s.mem a)

/-- spec/20_memory.md R75, R78: an access of another width, or at an address that is not a cell address of R72, is
refused; an access of 4 bytes at a cell address is not. A step of `CHAIN` (spec/30_encoding.md R119) makes two
accesses of 4 bytes, and is accepted exactly when both are at cell addresses. -/
def Obligations.AccessesOutsideTheCellsAreRefused : Prop :=
  ∀ (s : State) (moves : List HostMove), s.live = .alive →
    (∀ (addr v : Word) (width : Nat),
      if width = 4 ∧ ∃ i, i < s.cfgN ∧ (addr.toNat = s.inAddr i ∨ addr.toNat = s.outAddr i) then
        (s.inbox = .write addr width v :: moves → ∃ t, step s = .next t) ∧
        (s.inbox = .read addr width :: moves → ∃ t, step s = .next t)
      else
        (s.inbox = .write addr width v :: moves → step s = .refused .notACell) ∧
        (s.inbox = .read addr width :: moves → step s = .refused .notACell)) ∧
    (∀ src dst : Word, s.inbox = .forward src dst :: moves →
      if (∃ i, i < s.cfgN ∧ (src.toNat = s.inAddr i ∨ src.toNat = s.outAddr i)) ∧
          (∃ i, i < s.cfgN ∧ (dst.toNat = s.inAddr i ∨ dst.toNat = s.outAddr i)) then
        ∃ t, step s = .next t
      else step s = .refused .notACell)

/-- spec/70_reset_and_hazards.md R276, R278: a read reports the cell, `STATUS` or `RESULT`, after what the host has read
before, and changes nothing else (spec/20_memory.md R77). -/
def Obligations.HostReadsReport : Prop :=
  ∀ (s : State) (moves : List HostMove), s.live = .alive →
    (∀ (i : Nat) (addr : Word), i < s.cfgN → (addr.toNat = s.inAddr i ∨ addr.toNat = s.outAddr i) →
      s.inbox = .read addr 4 :: moves →
        step s = .next { s with inbox := moves, observed := s.observed ++ [.cell addr (s.readCell addr.toNat)] }) ∧
    (s.inbox = .readStatus :: moves →
      step s = .next { s with inbox := moves, observed := s.observed ++ [.status s.status] }) ∧
    (s.inbox = .readResult :: moves →
      step s = .next { s with inbox := moves, observed := s.observed ++ [.result s.result] })

/-- spec/30_encoding.md R119, spec/20_memory.md R84: one step of `CHAIN` copies output cell `i` to input cell `i`, bit for
bit, and changes no other byte. -/
def Obligations.ChainMovesOutputToInput : Prop :=
  ∀ (s : State) (i : Nat) (src dst : Word) (moves : List HostMove),
    s.live = .alive → i < s.cfgN → src.toNat = s.outAddr i → dst.toNat = s.inAddr i →
    s.inbox = .forward src dst :: moves →
      Completes (step s) fun t =>
        t = { s with inbox := moves, mem := t.mem, observed := s.observed ++ [.cell src (s.readOut i)] } ∧
        t.readIn i = s.readOut i ∧
        (∀ a, (a < s.inAddr i ∨ s.inAddr i + 4 ≤ a) → Memory.readByte t.mem a = Memory.readByte s.mem a)

/-! ## PSHIFT -/

/-- spec/42_pitch_shift.md R181: `PSHIFT` completes with `STATUS` = 0 and leaves in `PHASE`, `PREV` and the output region
what the per-sample rule gives over the input region, from the `PHASE` and `PREV` the command found. -/
def Obligations.PshiftRunsTheRecurrence : Prop :=
  ∀ (s : State) (pf : F32), s.Placed →
    Completes (exec (.pshift pf) s) fun t =>
      t.status = 0 ∧ (t.phase, t.prev, t.outCells) = Reference.pshift s.draw pf 0 s.phase s.prev s.inCells

/-- spec/10_state.md R48: `PSHIFT` writes `PHASE`, `PREV`, the output region and `STATUS`, and nothing else. -/
def Obligations.PshiftFrame : Prop :=
  ∀ (s t : State) (pf : F32), exec (.pshift pf) s = .next t →
    t = { s with phase := t.phase, prev := t.prev, mem := t.mem, status := t.status, draws := t.draws } ∧
    ∀ a, s.OutsideOutput a → Memory.readByte t.mem a = Memory.readByte s.mem a

/-- spec/42_pitch_shift.md R182: in an iteration whose correction fires, for a finite sum and a finite sample x, `PREV`
becomes x and the output is x exactly, but for x = -0.0, where it is +0.0. -/
def Obligations.PshiftOutputIsInputWhenItFires : Prop :=
  ∀ (s : State) (pf : F32) (i : Nat),
    fge (fadd (s.draw i 0) s.phase pf) oneF = true → F32.isFinite (fadd (s.draw i 0) s.phase pf) = true →
    F32.isFinite (s.readIn i) = true →
      (pshiftSample pf i s).prev = s.readIn i ∧
      (pshiftSample pf i s).readOut i = if s.readIn i = 0x80000000#32 then 0 else s.readIn i

/-- spec/40_numerics.md R156, spec/42_pitch_shift.md R183: a NaN in `PHASE` stays through every `PSHIFT`, the correction
never fires, and every output is NaN. -/
def Obligations.PshiftNaNPhaseIsPermanent : Prop :=
  ∀ (s : State) (pf : F32), F32.isNaN s.phase = true →
    Completes (exec (.pshift pf) s) fun t =>
      F32.isNaN t.phase = true ∧ t.prev = s.prev ∧ ∀ i, i < s.cfgN → F32.isNaN (t.readOut i) = true

/-- spec/42_pitch_shift.md R183: with 0 ≤ `pf` < 1.0 and 0 ≤ `PHASE` < 1.0 on entry, `PHASE` is in [0, 1.0) after the
command; the test is made on the rounded sum. -/
def Obligations.PshiftPhaseStaysBelowOne : Prop :=
  ∀ (s : State) (pf : F32), fge pf 0 = true → flt pf oneF = true → fge s.phase 0 = true → flt s.phase oneF = true →
    Completes (exec (.pshift pf) s) fun t => fge t.phase 0 = true ∧ flt t.phase oneF = true

/-! ## BASS -/

/-- spec/43_bass_boost.md R191: `BASS` completes with `STATUS` = 0, and output cell i is `TANH32(fmul(IN[i], bf))` with
`bf = POW32(10.0, fdiv(db, 20.0))`. -/
def Obligations.BassIsPointwise : Prop :=
  ∀ (s : State) (db : F32), s.Placed →
    Completes (exec (.bass db) s) fun t =>
      t.status = 0 ∧ ∀ i, i < s.cfgN →
        t.readOut i = tanh32 (s.draw i 3)
          (fmul (s.draw i 2) (s.readIn i) (pow32 (s.draw 0 1) 0x41200000#32 (fdiv (s.draw 0 0) db 0x41A00000#32)))

/-- spec/43_bass_boost.md R192: wherever the product of sample and boost factor is not NaN, the output lies in the closed
interval [-1.0, 1.0], whatever `db` is. -/
def Obligations.BassOutputIsBounded : Prop :=
  ∀ (s : State) (db : F32) (i : Nat), s.Placed → i < s.cfgN →
    F32.isNaN (fmul (s.draw i 2) (s.readIn i) (bassFactor db s)) = false →
      Completes (exec (.bass db) s) fun t =>
        fge (t.readOut i) 0xBF800000#32 = true ∧ fge 0x3F800000#32 (t.readOut i) = true

/-- spec/43_bass_boost.md R193: with `db` = ±0.0 the boost factor is exactly 1.0, and the output is `TANH32(IN[i])`:
saturation is always applied. -/
def Obligations.BassAtZeroGainIsTanh : Prop :=
  ∀ (s : State) (db : F32), s.Placed → F32.isZero db = true →
    bassFactor db s = 0x3F800000#32 ∧
    Completes (exec (.bass db) s) fun t =>
      ∀ i, i < s.cfgN → F32.isNaN (s.readIn i) = false → t.readOut i = tanh32 (s.draw i 3) (s.readIn i)

/-- spec/10_state.md R48: `BASS`, `LOFI` and `COPY` write the output region and `STATUS`, and nothing else: no DSP
register, no byte outside the output region. -/
def Obligations.OutputOnlyFrame : Prop :=
  ∀ (i : Instr) (s t : State), ((∃ db, i = .bass db) ∨ (∃ bd dsf, i = .lofi bd dsf) ∨ i = .copy) →
    exec i s = .next t →
      t = { s with mem := t.mem, status := t.status, draws := t.draws } ∧
      ∀ a, s.OutsideOutput a → Memory.readByte t.mem a = Memory.readByte s.mem a

/-! ## EQ7 -/

/-- spec/44_eq7.md R201, spec/60_exceptions.md R240: with a gain count other than 7 `EQ7` ends at once with `STATUS` = 1
and nothing else changes: every other register and every byte of memory is as before. -/
def Obligations.Eq7WrongCountRaises : Prop :=
  ∀ (s : State) (gains : List F32), gains.length ≠ 7 → exec (.eq7 gains) s = .next { s with status := 1 }

/-- spec/44_eq7.md R203: any seven gains give the same result. -/
def Obligations.Eq7GainsHaveNoEffect : Prop :=
  ∀ (s : State) (gains gains' : List F32), gains.length = 7 → gains'.length = 7 →
    exec (.eq7 gains) s = exec (.eq7 gains') s

/-- spec/41_biquad.md R161: the biquad step returns the five-product sum, grouped from the left, and shifts the four
history registers of its stage at once; every other stage and every other register is as before. -/
def Obligations.BiquadStepShiftsItsStage : Prop :=
  ∀ (s : State) (i : Nat) (k : Fin 7) (input : F32),
    let d := s.biquadDraw i k
    let b := s.bq[k]
    let r := biquadStep i k (input, s)
    r.1 = fsub (d 8) (fsub (d 7) (fadd (d 6) (fadd (d 5) (fmul (d 0) b.b0 input) (fmul (d 1) b.b1 b.x1))
        (fmul (d 2) b.b2 b.x2)) (fmul (d 3) b.a1 b.y1)) (fmul (d 4) b.a2 b.y2) ∧
      r.2.bq[k] = { b with x1 := input, x2 := b.x1, y1 := r.1, y2 := b.y1 } ∧
      (∀ j : Fin 7, j ≠ k → r.2.bq[j] = s.bq[j]) ∧ r.2 = { s with bq := r.2.bq }

/-- spec/44_eq7.md R202, spec/41_biquad.md R163: with seven gains `EQ7` completes with `STATUS` = 0 and leaves in the
stages and in the output region what the cascade gives, sample by sample, stages 0 to 6 in order, from the
histories the command found. -/
def Obligations.Eq7RunsTheCascade : Prop :=
  ∀ (s : State) (gains : List F32), s.Placed → gains.length = 7 →
    Completes (exec (.eq7 gains) s) fun t =>
      t.status = 0 ∧
      (t.bq.toList, t.outCells) = Reference.sampleMajor (Reference.biquadDraws s) 0 s.bq.toList s.inCells

/-- spec/44_eq7.md R202: "Running stage 0 over the whole block, then stage 1 over its results, and so on gives the same
output region and the same final history". -/
def Obligations.Eq7StageByStage : Prop :=
  ∀ (s : State) (gains : List F32), s.Placed → gains.length = 7 →
    Completes (exec (.eq7 gains) s) fun t =>
      (t.bq.toList, t.outCells) = Reference.stageMajor (Reference.biquadDraws s) 0 s.bq.toList s.inCells

/-- spec/10_state.md R48, R42: `EQ7` writes the history registers, the output region and `STATUS`, and nothing else: no
coefficient, no re-sampler register, no byte outside the output region. -/
def Obligations.Eq7Frame : Prop :=
  ∀ (s t : State) (gains : List F32), exec (.eq7 gains) s = .next t →
    t = { s with bq := t.bq, mem := t.mem, status := t.status, draws := t.draws } ∧
    (∀ k : Fin 7, t.bq[k].b0 = s.bq[k].b0 ∧ t.bq[k].b1 = s.bq[k].b1 ∧ t.bq[k].b2 = s.bq[k].b2 ∧
      t.bq[k].a1 = s.bq[k].a1 ∧ t.bq[k].a2 = s.bq[k].a2) ∧
    ∀ a, s.OutsideOutput a → Memory.readByte t.mem a = Memory.readByte s.mem a

/-- spec/40_numerics.md R156, spec/44_eq7.md R204: a NaN in a stage's `y1` stays for every sample of every block, and in
the `y1` of every later stage, and every output is NaN. -/
def Obligations.Eq7NaNHistoryIsPermanent : Prop :=
  ∀ (s : State) (gains : List F32) (k : Fin 7), gains.length = 7 → F32.isNaN s.bq[k].y1 = true →
    Completes (exec (.eq7 gains) s) fun t =>
      F32.isNaN t.bq[k].y1 = true ∧
      (0 < s.cfgN → ∀ j : Fin 7, k ≤ j → F32.isNaN t.bq[j].y1 = true) ∧
      ∀ i, i < s.cfgN → F32.isNaN (t.readOut i) = true

/-! ## LOFI -/

/-- spec/45_lofi.md R211: `LOFI` completes with `STATUS` = 0; output cell i is the quantized sample where the decision is
fresh, else the output cell before it, else +0.0. -/
def Obligations.LofiRunsTheRecurrence : Prop :=
  ∀ (s : State) (bd dsf : F32), s.Placed →
    Completes (exec (.lofi bd dsf) s) fun t =>
      t.status = 0 ∧ ∀ i, i < s.cfgN →
        let levels := fsub (s.draw 0 1) (pow32 (s.draw 0 0) 0x40000000#32 bd) 0x3F800000#32
        t.readOut i =
          if flt (fmod (s.draw i 5) (i2f i) dsf) 0x3F800000#32 then
            fdiv (s.draw i 4) (fround (s.draw i 3) (fmul (s.draw i 2) (s.readIn i) levels)) levels
          else if i = 0 then 0
          else t.readOut (i - 1)

/-- spec/45_lofi.md R214: the downsample decision for every factor. For a finite factor that is not a zero, iteration i
is fresh exactly when the real remainder of i by abs(d) is below 1.0; for an integral factor of magnitude M,
exactly when i mod M = 0; for an infinite factor only i = 0; for a zero or a NaN, never. -/
def Obligations.LofiHoldPattern : Prop :=
  ∀ (s : State) (i : Nat) (d : F32), i < 16777216 →
    (F32.isFinite d = true → F32.isZero d = false →
      (lofiFresh d i s = true ↔ i * 2 ^ 149 % F32.units d < 2 ^ 149)) ∧
    (∀ m : Nat, 1 ≤ m → m ≤ 16777216 → (d = i2f m ∨ d = fneg (i2f m)) → (lofiFresh d i s = true ↔ i % m = 0)) ∧
    (F32.isInf d = true → (lofiFresh d i s = true ↔ i = 0)) ∧
    ((F32.isZero d = true ∨ F32.isNaN d = true) → lofiFresh d i s = false)

/-- spec/45_lofi.md R214: with a zero or NaN factor the whole output region is +0.0. -/
def Obligations.LofiZeroOrNaNFactorGivesZeros : Prop :=
  ∀ (s : State) (bd dsf : F32), F32.isZero dsf = true ∨ F32.isNaN dsf = true →
    Completes (exec (.lofi bd dsf) s) fun t => ∀ i, i < s.cfgN → t.readOut i = 0

/-- spec/45_lofi.md R216: with `bit_depth` = 1.0 and `downsample_factor` = 1.0 every output is `ROUND` of its input. -/
def Obligations.LofiOneBitIsRound : Prop :=
  ∀ (s : State), s.Placed → s.cfgN ≤ 16777216 →
    Completes (exec (.lofi 0x3F800000#32 0x3F800000#32) s) fun t =>
      ∀ i, i < s.cfgN → F32.isNaN (s.readIn i) = false → t.readOut i = fround (s.draw i 3) (s.readIn i)

/-! ## COPY, GETIN, GETOUT -/

/-- spec/46_copy_and_access.md R221, R222: `COPY` completes with `STATUS` = 0; the output region equals the input region
bit for bit, and the input region is as it was. -/
def Obligations.CopyMovesBits : Prop :=
  ∀ s : State, s.Placed →
    Completes (exec .copy s) fun t => t.status = 0 ∧ t.outCells = s.inCells ∧ t.inCells = s.inCells

/-- spec/46_copy_and_access.md R222: calling `COPY` twice in a row yields the same state as once. -/
def Obligations.CopyTwiceIsCopyOnce : Prop :=
  ∀ s t : State, s.Placed → Memory.wf s.mem = true → exec .copy s = .next t → exec .copy t = .next t

/-- spec/46_copy_and_access.md R223, R224: the queries leave their base in `RESULT` and 0 in `STATUS`, and change nothing
else. -/
def Obligations.QueriesReturnTheBases : Prop :=
  ∀ s : State, exec .getin s = .next { s with result := s.inBase, status := 0 } ∧
    exec .getout s = .next { s with result := s.outBase, status := 0 }

/-! ## Rules over all commands -/

/-- spec/20_memory.md R82, spec/10_state.md R48: no command writes the input region. -/
def Obligations.NoCommandWritesTheInput : Prop :=
  ∀ (i : Instr) (s t : State), s.Placed → exec i s = .next t → t.inCells = s.inCells

/-- spec/20_memory.md R83: what an effect operation leaves, in the output region and in every register, does not depend
on what the output region held before. -/
def Obligations.OutputIgnoresOldOutput : Prop :=
  ∀ (i : Instr) (s : State) (m : Memory), s.Placed → i ≠ .getin → i ≠ .getout →
    (∀ gains, i = .eq7 gains → gains.length = 7) →
    (∀ a, s.OutsideOutput a → Memory.readByte m a = Memory.readByte s.mem a) →
      Completes (exec i s) fun t =>
        Completes (exec i (s.setMem m)) fun t' => t'.outCells = t.outCells ∧ t' = t.setMem t'.mem

/-- spec/10_state.md R47: after construction `PHASE` and `PREV` change only in a step that runs `PSHIFT`, and a stage's
registers only in a step that runs `EQ7` with seven gains, whatever else the host does in between. -/
def Obligations.DspStatePersists : Prop :=
  ∀ s t : State, s.live ≠ .unborn → step s = .next t →
    ((t.phase ≠ s.phase ∨ t.prev ≠ s.prev) →
      ∃ ws moves pf rest, s.inbox = .packet ws :: moves ∧ decode ws = .command (.pshift pf) rest) ∧
    (t.bq ≠ s.bq →
      ∃ ws moves gains rest, s.inbox = .packet ws :: moves ∧ decode ws = .command (.eq7 gains) rest ∧ gains.length = 7)

/-- spec/10_state.md R38: after construction `RESULT` changes only in a step that runs `GETIN` or `GETOUT`. -/
def Obligations.ResultChangesOnlyByQueries : Prop :=
  ∀ s t : State, s.live ≠ .unborn → step s = .next t → t.result ≠ s.result →
    ∃ ws moves i rest, s.inbox = .packet ws :: moves ∧ decode ws = .command i rest ∧ (i = .getin ∨ i = .getout)

/-- spec/60_exceptions.md R234, spec/70_reset_and_hazards.md R281: a legal command that is not an `EQ7` with a wrong count
always completes with `STATUS` = 0, whatever its operands, the samples and the registers hold. -/
def Obligations.LegalCommandsAlwaysSucceed : Prop :=
  ∀ (i : Instr) (s : State), (∀ gains, i = .eq7 gains → gains.length = 7) →
    Completes (exec i s) fun t => t.status = 0

/-! ## Arithmetic -/

/-- spec/40_numerics.md R132, R134: rounding n/d units of 2^-149 gives the nearest finite magnitude, an even pattern at a
tie; and it gives infinity exactly from half a unit in the last place above the largest finite value on. -/
def Obligations.RoundingIsNearestTiesToEven : Prop :=
  ∀ n d : Nat, 0 < d →
    (∀ m : Nat, m < infMag → roundMag n d < infMag → m ≠ roundMag n d →
      ((unitsOfMag (roundMag n d) * d : Int) - n).natAbs < ((unitsOfMag m * d : Int) - n).natAbs ∨
      (((unitsOfMag (roundMag n d) * d : Int) - n).natAbs = ((unitsOfMag m * d : Int) - n).natAbs ∧
        roundMag n d % 2 = 0)) ∧
    (roundMag n d = infMag ↔ 33554431 * 2 ^ 252 * d ≤ n)

/-- spec/40_numerics.md R132, R134: for finite operands (and a divisor that is not a zero) each of the four operations
is the exact real sum, difference, product or quotient rounded once: infinite exactly on overflow, else nearest,
ties to even; its sign is that of the exact result, an exact zero having the sign the table of R134 gives. -/
def Obligations.ArithmeticIsCorrectlyRounded : Prop :=
  ∀ (d : Draw) (a b : F32), F32.isFinite a = true → F32.isFinite b = true →
    Reference.IsRounded (fadd d a b) (F32.neg a && F32.neg b) (F32.toUnits a + F32.toUnits b) 1 ∧
    Reference.IsRounded (fsub d a b) (F32.neg a && !F32.neg b) (F32.toUnits a - F32.toUnits b) 1 ∧
    Reference.IsRounded (fmul d a b) (F32.neg a != F32.neg b) (F32.toUnits a * F32.toUnits b) (2 ^ 149) ∧
    (F32.isZero b = false →
      Reference.IsRounded (fdiv d a b) (F32.neg a != F32.neg b)
        (if F32.neg b then -(F32.toUnits a * 2 ^ 149) else F32.toUnits a * 2 ^ 149) (F32.units b))

/-- spec/40_numerics.md R134: the special cases of its table: the invalid operations, division by zero and by infinity,
and the signs of zero results. The last three clauses, an infinity with a finite operand and two infinities that are
no invalid operation, are IEEE 754's rows that the table does not list (log entry 18). -/
def Obligations.ArithmeticSpecialCases : Prop :=
  ∀ (d : Draw) (a b : F32),
    (F32.isInf a = true → F32.isInf b = true →
      F32.isNaN (fadd d a b) = (F32.neg a != F32.neg b) ∧ F32.isNaN (fsub d a b) = (F32.neg a == F32.neg b) ∧
      F32.isNaN (fdiv d a b) = true) ∧
    (F32.isZero a = true → F32.isInf b = true → F32.isNaN (fmul d a b) = true ∧ F32.isNaN (fmul d b a) = true) ∧
    (F32.isZero a = true → F32.isZero b = true → F32.isNaN (fdiv d a b) = true) ∧
    (F32.isFinite a = true → F32.isZero a = false → F32.isZero b = true →
      F32.isInf (fdiv d a b) = true ∧ F32.neg (fdiv d a b) = (F32.neg a != F32.neg b)) ∧
    (F32.isFinite a = true → F32.isInf b = true →
      F32.isZero (fdiv d a b) = true ∧ F32.neg (fdiv d a b) = (F32.neg a != F32.neg b)) ∧
    (F32.isFinite a = true → fsub d a a = 0) ∧
    (F32.isFinite a = true → F32.isFinite b = true → F32.toUnits a + F32.toUnits b = 0 → F32.neg a ≠ F32.neg b →
      fadd d a b = 0) ∧
    (F32.isZero a = true → fadd d a a = a) ∧
    (F32.isFinite a = true → F32.isFinite b = true → F32.isZero (fmul d a b) = true →
      F32.neg (fmul d a b) = (F32.neg a != F32.neg b)) ∧
    (F32.isFinite a = true → F32.isFinite b = true → F32.isZero b = false → F32.isZero (fdiv d a b) = true →
      F32.neg (fdiv d a b) = (F32.neg a != F32.neg b)) ∧
    (F32.isInf a = true → F32.isFinite b = true →
      fadd d a b = a ∧ fadd d b a = a ∧ fsub d a b = a ∧ fsub d b a = fneg a ∧
      F32.isInf (fdiv d a b) = true ∧ F32.neg (fdiv d a b) = (F32.neg a != F32.neg b)) ∧
    (F32.isInf a = true → F32.isFinite b = true → F32.isZero b = false →
      F32.isInf (fmul d a b) = true ∧ F32.neg (fmul d a b) = (F32.neg a != F32.neg b) ∧
      F32.isInf (fmul d b a) = true ∧ F32.neg (fmul d b a) = (F32.neg a != F32.neg b)) ∧
    (F32.isInf a = true → F32.isInf b = true →
      (F32.neg a = F32.neg b → fadd d a b = a) ∧ (F32.neg a ≠ F32.neg b → fsub d a b = a) ∧
      F32.isInf (fmul d a b) = true ∧ F32.neg (fmul d a b) = (F32.neg a != F32.neg b))

/-- spec/40_numerics.md R135: the free NaN is a quiet NaN; every operation but the comparisons returns it when an operand
is NaN (`POW32` with a zero exponent apart, POW-ZERO); and whenever an operation answers a NaN, invalid operations
included, that answer is it. `POW32` is claimed for the two bases the engine uses. -/
def Obligations.NaNResultsAreQuietAndPropagate : Prop :=
  ∀ d : Draw, F32.isNaN (freeNaN d) = true ∧ (freeNaN d &&& 0x7FC00000#32) = 0x7FC00000#32 ∧
    ∀ a b : F32,
      ((F32.isNaN a = true ∨ F32.isNaN b = true) →
        fadd d a b = freeNaN d ∧ fsub d a b = freeNaN d ∧ fmul d a b = freeNaN d ∧ fdiv d a b = freeNaN d ∧
        fmod d a b = freeNaN d ∧ (F32.isZero b = false → pow32 d a b = freeNaN d)) ∧
      (F32.isNaN a = true → fround d a = freeNaN d ∧ tanh32 d a = freeNaN d) ∧
      (F32.isNaN (fadd d a b) = true → fadd d a b = freeNaN d) ∧
      (F32.isNaN (fsub d a b) = true → fsub d a b = freeNaN d) ∧
      (F32.isNaN (fmul d a b) = true → fmul d a b = freeNaN d) ∧
      (F32.isNaN (fdiv d a b) = true → fdiv d a b = freeNaN d) ∧
      (F32.isNaN (fmod d a b) = true → fmod d a b = freeNaN d) ∧
      (F32.isNaN (fround d a) = true → fround d a = freeNaN d) ∧
      (F32.isNaN (tanh32 d a) = true → tanh32 d a = freeNaN d) ∧
      ((a = 0x40000000#32 ∨ a = 0x41200000#32) → F32.isNaN (pow32 d a b) = true → pow32 d a b = freeNaN d)

/-- spec/40_numerics.md R140: the comparisons go by real value, the two zeros are equal, infinities lie beyond every
finite value, and with a NaN both comparisons are false. -/
def Obligations.ComparisonsFollowRealValue : Prop :=
  ∀ a b : F32,
    ((F32.isNaN a = true ∨ F32.isNaN b = true) → fge a b = false ∧ flt a b = false) ∧
    (F32.isFinite a = true → F32.isFinite b = true →
      (fge a b = true ↔ F32.toUnits b ≤ F32.toUnits a) ∧ (flt a b = true ↔ F32.toUnits a < F32.toUnits b)) ∧
    (F32.isInf a = true → F32.isFinite b = true → fge a b = !F32.neg a ∧ flt a b = F32.neg a) ∧
    (F32.isFinite a = true → F32.isInf b = true → fge a b = F32.neg b ∧ flt a b = !F32.neg b) ∧
    (F32.isInf a = true → F32.isInf b = true →
      fge a b = (!F32.neg a || F32.neg b) ∧ flt a b = (F32.neg a && !F32.neg b))

/-- spec/40_numerics.md R142: `ROUND` keeps infinities; for a finite v it keeps the sign and gives floor(abs(v) + 1/2)
exactly, so ties go away from zero, a magnitude below one half gives a zero, and v from 2^23 on is itself. -/
def Obligations.RoundIsExactTiesAway : Prop :=
  ∀ (d : Draw) (v : F32),
    (F32.isNaN v = true → F32.isNaN (fround d v) = true) ∧ (F32.isInf v = true → fround d v = v) ∧
    (F32.isFinite v = true →
      F32.neg (fround d v) = F32.neg v ∧ F32.isFinite (fround d v) = true ∧
      F32.units (fround d v) = (2 * F32.units v + 2 ^ 149) / 2 ^ 150 * 2 ^ 149 ∧
      (0x4B000000 ≤ F32.mag v → fround d v = v))

/-- spec/40_numerics.md R144: `FMOD` is exact: for finite a and finite non-zero b it has the sign of a and its magnitude
is the remainder of the magnitudes; the other rows of the table as the rule gives them; the sign of b never matters. -/
def Obligations.FmodIsTheExactRemainder : Prop :=
  ∀ (d : Draw) (a b : F32),
    (F32.isFinite a = true → F32.isFinite b = true → F32.isZero b = false →
      F32.neg (fmod d a b) = F32.neg a ∧ F32.isFinite (fmod d a b) = true ∧
      F32.units (fmod d a b) = F32.units a % F32.units b) ∧
    ((F32.isNaN a = true ∨ F32.isNaN b = true ∨ F32.isInf a = true ∨ F32.isZero b = true) →
      F32.isNaN (fmod d a b) = true) ∧
    (F32.isFinite a = true → F32.isInf b = true → fmod d a b = a) ∧
    fmod d a (fneg b) = fmod d a b

/-- spec/40_numerics.md R150: `I2F` is exact for every index of the largest block. -/
def Obligations.IndexConversionIsExact : Prop :=
  ∀ i : Nat, i ≤ 16777216 →
    F32.units (i2f i) = i * 2 ^ 149 ∧ F32.neg (i2f i) = false ∧ F32.isFinite (i2f i) = true

/-- spec/40_numerics.md R148: the named properties TANH-ZERO, TANH-INF, TANH-RANGE, TANH-SIGN and TANH-SAT, whatever the
free choice is. TANH-NAN is in `NaNResultsAreQuietAndPropagate`; TANH-NEAR is not stated. -/
def Obligations.TanhNamedProperties : Prop :=
  ∀ (d : Draw) (v : F32), F32.isNaN v = false →
    tanh32 d 0x00000000#32 = 0x00000000#32 ∧ tanh32 d 0x80000000#32 = 0x80000000#32 ∧
    tanh32 d 0x7F800000#32 = 0x3F800000#32 ∧ tanh32 d 0xFF800000#32 = 0xBF800000#32 ∧
    fge (tanh32 d v) 0xBF800000#32 = true ∧ fge 0x3F800000#32 (tanh32 d v) = true ∧
    F32.neg (tanh32 d v) = F32.neg v ∧
    (fge v 0x41200000#32 = true → tanh32 d v = 0x3F800000#32) ∧
    (fge 0xC1200000#32 v = true → tanh32 d v = 0xBF800000#32)

/-- spec/40_numerics.md R146: the named properties POW-ZERO, POW-ONE, POW-2INT, POW-OVF, POW-UNF and POW-POS, whatever the
free choice is. POW-NAN is in `NaNResultsAreQuietAndPropagate`; POW-NEAR is not stated. That a result POW-POS calls
≥ +0.0 has a positive sign, and so is not -0.0, is the model's choice (log entry 22). -/
def Obligations.PowNamedProperties : Prop :=
  ∀ (d : Draw) (a b : F32),
    (F32.isZero b = true → pow32 d a b = 0x3F800000#32) ∧
    pow32 d 0x40000000#32 0x3F800000#32 = 0x40000000#32 ∧ pow32 d 0x41200000#32 0x3F800000#32 = 0x41200000#32 ∧
    (∀ k : Int, -149 ≤ k → k ≤ 127 → F32.isFinite b = true → F32.toUnits b = k * 2 ^ 149 →
      F32.neg (pow32 d 0x40000000#32 b) = false ∧ F32.isFinite (pow32 d 0x40000000#32 b) = true ∧
      F32.units (pow32 d 0x40000000#32 b) = 2 ^ (k + 149).toNat) ∧
    (fge b 0x43000000#32 = true → pow32 d 0x40000000#32 b = 0x7F800000#32) ∧
    (fge b 0x421C0000#32 = true → pow32 d 0x41200000#32 b = 0x7F800000#32) ∧
    (fge 0xC3170000#32 b = true → pow32 d 0x40000000#32 b = 0) ∧
    pow32 d 0x41200000#32 0xFF800000#32 = 0 ∧
    ((a = 0x40000000#32 ∨ a = 0x41200000#32) → F32.isNaN b = false →
      F32.isNaN (pow32 d a b) = false ∧ F32.neg (pow32 d a b) = false)

/-! ## The coefficient design -/

/-- spec/41_biquad.md R165, R172: with gain_db = 0 a peaking design that has a real value has b0 = 1.0, and b1, b2 are bit
for bit a1, a2. The fixed-point arithmetic of the design is the model's (log entry 17). -/
def Obligations.PeakingAtZeroGainIsFlat : Prop :=
  ∀ (freq rate q : F32) (c : Coef), realPeaking freq rate q 0 = some c →
    designPeaking freq rate q 0 = c ∧ c.b0 = 0x3F800000#32 ∧ c.b1 = c.a1 ∧ c.b2 = c.a2
end

