-- ==== Sys2Proof/Laws/Memory.lean ====
section
/-! SUPPORT. The laws of memory: what a read gives after a write, and that every operation keeps the canonical
form. The read laws hold of every memory, canonical or not. -/

namespace Sys2Proof.Machine

theorem readByte_erase (m : Memory) (a b : Nat) :
    Memory.readByte (Memory.erase m a) b = if b = a then Memory.unlisted else Memory.readByte m b := by
  induction m with
  | nil => simp [Memory.erase, Memory.readByte]
  | cons c m ih =>
    obtain ⟨k, v⟩ := c
    simp only [Memory.erase, List.filter_cons] at ih ⊢
    by_cases hk : k = a
    · subst hk
      simp only [ne_eq, not_true_eq_false, decide_false, Bool.false_eq_true, if_false, ih, Memory.readByte]
      by_cases hb : b = k
      · simp [hb]
      · simp [hb, Ne.symm hb]
    · simp only [ne_eq, hk, not_false_eq_true, decide_true, if_true, Memory.readByte, ih]
      by_cases hb : k = b
      · subst hb; simp [hk]
      · simp [hb]

theorem readByte_insert (m : Memory) (a b : Nat) (v : Byte) (ha : Memory.readByte m a = Memory.unlisted ∧ ∀ c ∈ m, c.1 ≠ a) :
    Memory.readByte (Memory.insert m a v) b = if b = a then v else Memory.readByte m b := by
  obtain ⟨-, ha⟩ := ha
  induction m with
  | nil => by_cases hb : b = a <;> simp [Memory.insert, Memory.readByte, hb, eq_comm]; exact fun h => absurd h.symm hb
  | cons c m ih =>
    obtain ⟨k, w⟩ := c
    have hk : k ≠ a := ha (k, w) (by simp)
    have ih := ih (fun c hc => ha c (by simp [hc]))
    simp only [Memory.insert]
    split
    · by_cases hb : b = a
      · simp [Memory.readByte, hb]
      · simp [Memory.readByte, hb, Ne.symm hb]
    · simp only [Memory.readByte, ih]
      by_cases hb : k = b
      · subst hb; simp [hk]
      · simp [hb]

theorem erase_no_key (m : Memory) (a : Nat) : ∀ c ∈ Memory.erase m a, c.1 ≠ a := by
  intro c hc
  simpa using (List.mem_filter.mp hc).2

/-- A byte reads back as written, and every other byte as before. -/
theorem readByte_writeByte (m : Memory) (a b : Nat) (v : Byte) :
    Memory.readByte (Memory.writeByte m a v) b = if b = a then v else Memory.readByte m b := by
  unfold Memory.writeByte
  split
  · next h => rw [readByte_erase, h]
  · rw [readByte_insert _ _ _ _ ⟨by simp [readByte_erase], erase_no_key m a⟩, readByte_erase]
    split <;> rfl

/-- What a cell write leaves in every byte of memory. -/
theorem readByte_writeWord (m : Memory) (a b : Nat) (v : Word) :
    Memory.readByte (Memory.writeWord m a v) b =
      if b = a + 3 then byteOf v 3 else if b = a + 2 then byteOf v 2 else if b = a + 1 then byteOf v 1
      else if b = a then byteOf v 0 else Memory.readByte m b := by
  simp only [Memory.writeWord, readByte_writeByte]

/-- Byte `k` of a written cell is bits 8k+7 to 8k of the value (spec/20_memory.md R74). -/
theorem readByte_writeWord_inside (m : Memory) (a k : Nat) (v : Word) (hk : k < 4) :
    Memory.readByte (Memory.writeWord m a v) (a + k) = byteOf v k := by
  rw [readByte_writeWord]
  have : k = 0 ∨ k = 1 ∨ k = 2 ∨ k = 3 := by omega
  rcases this with rfl | rfl | rfl | rfl <;> simp

/-- A cell write leaves every byte outside the cell alone. -/
theorem readByte_writeWord_outside (m : Memory) (a b : Nat) (v : Word) (h : b < a ∨ a + 4 ≤ b) :
    Memory.readByte (Memory.writeWord m a v) b = Memory.readByte m b := by
  rw [readByte_writeWord]
  have h3 : b ≠ a + 3 := by omega
  have h2 : b ≠ a + 2 := by omega
  have h1 : b ≠ a + 1 := by omega
  have h0 : b ≠ a := by omega
  simp [h3, h2, h1, h0]

/-- The four bytes of a word, put together again, are the word. -/
theorem bytes_of_word (v : Word) : byteOf v 3 ++ byteOf v 2 ++ byteOf v 1 ++ byteOf v 0 = v := by
  apply BitVec.eq_of_toNat_eq
  have hv := v.isLt
  simp only [BitVec.toNat_append, byteOf, BitVec.toNat_ofNat]
  rw [← Nat.shiftLeft_add_eq_or_of_lt (by omega), ← Nat.shiftLeft_add_eq_or_of_lt (by omega),
    ← Nat.shiftLeft_add_eq_or_of_lt (by omega)]
  simp only [Nat.shiftLeft_eq]
  omega

theorem readWord_writeWord_same (m : Memory) (a : Nat) (v : Word) :
    Memory.readWord (Memory.writeWord m a v) a = v := by
  have h (k : Nat) (hk : k < 4) := readByte_writeWord_inside m a k v hk
  have h0 := h 0 (by omega)
  rw [Nat.add_zero] at h0
  rw [Memory.readWord, h 3 (by omega), h 2 (by omega), h 1 (by omega), h0, bytes_of_word]

theorem readWord_writeWord_apart (m : Memory) (a b : Nat) (v : Word) (h : b + 4 ≤ a ∨ a + 4 ≤ b) :
    Memory.readWord (Memory.writeWord m a v) b = Memory.readWord m b := by
  unfold Memory.readWord
  rw [readByte_writeWord_outside, readByte_writeWord_outside, readByte_writeWord_outside, readByte_writeWord_outside]
  all_goals omega

/-- A cell's value is fixed by its four bytes. -/
theorem readWord_congr (m m' : Memory) (a : Nat) (h : ∀ k < 4, Memory.readByte m (a + k) = Memory.readByte m' (a + k)) :
    Memory.readWord m a = Memory.readWord m' a := by
  have h0 := h 0 (by omega)
  rw [Nat.add_zero] at h0
  rw [Memory.readWord, Memory.readWord, h 3 (by omega), h 2 (by omega), h 1 (by omega), h0]

/-! ### The canonical form -/

theorem wf_cons (a : Nat) (v : Byte) (m : Memory) :
    Memory.wf ((a, v) :: m) = true ↔ v ≠ Memory.unlisted ∧ (∀ c ∈ m, a < c.1) ∧ Memory.wf m = true := by
  simp [Memory.wf, and_assoc]

theorem wf_erase (m : Memory) (a : Nat) (h : Memory.wf m = true) : Memory.wf (Memory.erase m a) = true := by
  induction m with
  | nil => rfl
  | cons c m ih =>
    obtain ⟨k, v⟩ := c
    obtain ⟨hv, hk, hm⟩ := (wf_cons k v m).mp h
    unfold Memory.erase at ih ⊢
    rw [List.filter_cons]
    split
    · exact (wf_cons _ _ _).mpr ⟨hv, fun c hc => hk c (List.mem_filter.mp hc).1, ih hm⟩
    · exact ih hm

theorem mem_insert (m : Memory) (a : Nat) (v : Byte) (c : Host.Cell) :
    c ∈ Memory.insert m a v ↔ c = (a, v) ∨ c ∈ m := by
  induction m with
  | nil => simp [Memory.insert]
  | cons d m ih =>
    obtain ⟨k, w⟩ := d
    simp only [Memory.insert]
    split
    · simp
    · simp only [List.mem_cons, ih]; tauto

theorem wf_insert (m : Memory) (a : Nat) (v : Byte) (h : Memory.wf m = true) (hv : v ≠ Memory.unlisted)
    (ha : ∀ c ∈ m, c.1 ≠ a) : Memory.wf (Memory.insert m a v) = true := by
  induction m with
  | nil => simp [Memory.insert, Memory.wf, hv]
  | cons d m ih =>
    obtain ⟨k, w⟩ := d
    obtain ⟨hw, hk, hm⟩ := (wf_cons k w m).mp h
    simp only [Memory.insert]
    split
    · next hak =>
      refine (wf_cons _ _ _).mpr ⟨hv, fun c hc => ?_, h⟩
      rcases List.mem_cons.mp hc with rfl | hc
      · exact hak
      · exact hak.trans (hk c hc)
    · next hak =>
      have hne : k ≠ a := ha (k, w) (by simp)
      refine (wf_cons _ _ _).mpr ⟨hw, fun c hc => ?_, ih hm fun c hc => ha c (by simp [hc])⟩
      rcases (mem_insert m a v c).mp hc with rfl | hc
      · simp only; omega
      · exact hk c hc

/-- Every byte write keeps the canonical form. -/
theorem wf_writeByte (m : Memory) (a : Nat) (v : Byte) (h : Memory.wf m = true) :
    Memory.wf (Memory.writeByte m a v) = true := by
  unfold Memory.writeByte
  split
  · exact wf_erase m a h
  · next hv => exact wf_insert _ _ _ (wf_erase m a h) hv (erase_no_key m a)

/-- Every cell write keeps the canonical form. -/
theorem wf_writeWord (m : Memory) (a : Nat) (v : Word) (h : Memory.wf m = true) :
    Memory.wf (Memory.writeWord m a v) = true := by
  unfold Memory.writeWord
  exact wf_writeByte _ _ _ (wf_writeByte _ _ _ (wf_writeByte _ _ _ (wf_writeByte _ _ _ h)))

/-- A write adds no address but its own. -/
theorem all_writeByte (p : Nat → Bool) (m : Memory) (a : Nat) (v : Byte) (h : m.all (fun c => p c.1) = true) (ha : p a = true) :
    (Memory.writeByte m a v).all (fun c => p c.1) = true := by
  simp only [List.all_eq_true] at h ⊢
  intro c hc
  unfold Memory.writeByte at hc
  have hmem (hc : c ∈ Memory.erase m a) : p c.1 = true := h c (List.mem_filter.mp hc).1
  split at hc
  · exact hmem hc
  · rcases (mem_insert _ _ _ _).mp hc with rfl | hc
    · exact ha
    · exact hmem hc

/-- A cell write adds no address but its four. -/
theorem all_writeWord (p : Nat → Bool) (m : Memory) (a : Nat) (v : Word) (h : m.all (fun c => p c.1) = true)
    (ha : ∀ k < 4, p (a + k) = true) : (Memory.writeWord m a v).all (fun c => p c.1) = true := by
  unfold Memory.writeWord
  exact all_writeByte p _ _ _ (all_writeByte p _ _ _ (all_writeByte p _ _ _ (all_writeByte p _ _ _ h
    (by simpa using ha 0 (by omega))) (ha 1 (by omega))) (ha 2 (by omega))) (ha 3 (by omega))

/-! ### Equal reads are equal memories -/

theorem readByte_of_mem (m : Memory) (h : Memory.wf m = true) (a : Nat) (v : Byte) (hc : (a, v) ∈ m) :
    Memory.readByte m a = v := by
  induction m with
  | nil => simp at hc
  | cons d m ih =>
    obtain ⟨k, w⟩ := d
    obtain ⟨-, hk, hm⟩ := (wf_cons k w m).mp h
    rcases List.mem_cons.mp hc with heq | hc
    · simp only [Prod.mk.injEq] at heq; simp [Memory.readByte, heq]
    · have : k < a := hk _ hc
      simp [Memory.readByte, this.ne, ih hm hc]

theorem readByte_below (m : Memory) (a : Nat) (h : ∀ c ∈ m, a < c.1) : Memory.readByte m a = Memory.unlisted := by
  induction m with
  | nil => rfl
  | cons d m ih =>
    have : a < d.1 := h d (by simp)
    simp only [Memory.readByte, this.ne', if_false]
    exact ih fun c hc => h c (by simp [hc])

/-- Two canonical memories that read alike are the same list. -/
theorem wf_ext (m m' : Memory) (h : Memory.wf m = true) (h' : Memory.wf m' = true)
    (heq : ∀ a, Memory.readByte m a = Memory.readByte m' a) : m = m' := by
  induction m generalizing m' with
  | nil =>
    cases m' with
    | nil => rfl
    | cons d m' =>
      obtain ⟨k, w⟩ := d
      have := heq k
      rw [readByte_of_mem _ h' k w (by simp)] at this
      exact absurd this.symm ((wf_cons _ _ _).mp h').1
  | cons c m ih =>
    obtain ⟨a, v⟩ := c
    obtain ⟨hv, ha, hm⟩ := (wf_cons a v m).mp h
    cases m' with
    | nil =>
      have := heq a
      rw [readByte_of_mem _ h a v (by simp)] at this
      exact absurd this hv
    | cons d m' =>
      obtain ⟨k, w⟩ := d
      obtain ⟨hw, hk, hm'⟩ := (wf_cons k w m').mp h'
      have hak : a = k := by
        by_contra hne
        rcases Nat.lt_or_gt_of_ne hne with hlt | hlt
        · have := heq a
          rw [readByte_of_mem _ h a v (by simp), readByte_below _ a] at this
          · exact hv this
          · intro c hc
            rcases List.mem_cons.mp hc with rfl | hc
            · exact hlt
            · exact hlt.trans (hk c hc)
        · have := heq k
          rw [readByte_of_mem _ h' k w (by simp), readByte_below _ k] at this
          · exact hw this.symm
          · intro c hc
            rcases List.mem_cons.mp hc with rfl | hc
            · exact hlt
            · exact hlt.trans (ha c hc)
      subst hak
      have hvw : v = w := by
        have := heq a
        rwa [readByte_of_mem _ h a v (by simp), readByte_of_mem _ h' a w (by simp)] at this
      subst hvw
      congr 1
      refine ih m' hm hm' fun b => ?_
      by_cases hb : b = a
      · subst hb; rw [readByte_below m b ha, readByte_below m' b hk]
      · simpa [Memory.readByte, Ne.symm hb] using heq b

/-- Writing to a cell what it holds already changes nothing. -/
theorem writeWord_readWord (m : Memory) (a : Nat) (h : Memory.wf m = true) :
    Memory.writeWord m a (Memory.readWord m a) = m := by
  have hb : ∀ k < 4, byteOf (Memory.readWord m a) k = Memory.readByte m (a + k) := by
    intro k hk
    unfold Memory.readWord byteOf
    apply BitVec.eq_of_toNat_eq
    simp only [BitVec.toNat_append, BitVec.toNat_ofNat]
    have h0 := (Memory.readByte m a).isLt
    have h1 := (Memory.readByte m (a + 1)).isLt
    have h2 := (Memory.readByte m (a + 2)).isLt
    have h3 := (Memory.readByte m (a + 3)).isLt
    rw [← Nat.shiftLeft_add_eq_or_of_lt (by omega), ← Nat.shiftLeft_add_eq_or_of_lt (by omega),
      ← Nat.shiftLeft_add_eq_or_of_lt (by omega)]
    simp only [Nat.shiftLeft_eq]
    have : k = 0 ∨ k = 1 ∨ k = 2 ∨ k = 3 := by omega
    rcases this with rfl | rfl | rfl | rfl <;> (try simp only [Nat.add_zero]) <;> omega
  refine wf_ext _ _ (wf_writeWord _ _ _ h) h fun b => ?_
  by_cases hin : a ≤ b ∧ b < a + 4
  · obtain ⟨k, rfl⟩ : ∃ k, b = a + k := ⟨b - a, by omega⟩
    rw [readByte_writeWord_inside _ _ _ _ (by omega), hb k (by omega)]
  · exact readByte_writeWord_outside _ _ _ _ (by omega)

end Sys2Proof.Machine
end

