-- ==== Sys2Proof/Laws/State.lean ====
section
/-! SUPPORT. One lemma per field per update of `State`, true by definition, so that no proof unfolds a record
update; and the same for the derived reads of the state. -/

namespace Sys2Proof.Machine

/-! ### `State.setLive` -/

@[simp] theorem State.setLive_live (s : State) (v : Live) : (s.setLive v).live = v := rfl
@[simp] theorem State.setLive_cfgN (s : State) (v : Live) : (s.setLive v).cfgN = s.cfgN := rfl
@[simp] theorem State.setLive_cfgSR (s : State) (v : Live) : (s.setLive v).cfgSR = s.cfgSR := rfl
@[simp] theorem State.setLive_status (s : State) (v : Live) : (s.setLive v).status = s.status := rfl
@[simp] theorem State.setLive_result (s : State) (v : Live) : (s.setLive v).result = s.result := rfl
@[simp] theorem State.setLive_phase (s : State) (v : Live) : (s.setLive v).phase = s.phase := rfl
@[simp] theorem State.setLive_prev (s : State) (v : Live) : (s.setLive v).prev = s.prev := rfl
@[simp] theorem State.setLive_bq (s : State) (v : Live) : (s.setLive v).bq = s.bq := rfl
@[simp] theorem State.setLive_inBase (s : State) (v : Live) : (s.setLive v).inBase = s.inBase := rfl
@[simp] theorem State.setLive_outBase (s : State) (v : Live) : (s.setLive v).outBase = s.outBase := rfl
@[simp] theorem State.setLive_mem (s : State) (v : Live) : (s.setLive v).mem = s.mem := rfl
@[simp] theorem State.setLive_inbox (s : State) (v : Live) : (s.setLive v).inbox = s.inbox := rfl
@[simp] theorem State.setLive_observed (s : State) (v : Live) : (s.setLive v).observed = s.observed := rfl
@[simp] theorem State.setLive_draws (s : State) (v : Live) : (s.setLive v).draws = s.draws := rfl
@[simp] theorem State.setLive_inAddr (s : State) (v : Live) (j : Nat) : (s.setLive v).inAddr j = s.inAddr j := rfl
@[simp] theorem State.setLive_outAddr (s : State) (v : Live) (j : Nat) : (s.setLive v).outAddr j = s.outAddr j := rfl
@[simp] theorem State.setLive_readCell (s : State) (v : Live) (j : Nat) : (s.setLive v).readCell j = s.readCell j := rfl
@[simp] theorem State.setLive_readIn (s : State) (v : Live) (j : Nat) : (s.setLive v).readIn j = s.readIn j := rfl
@[simp] theorem State.setLive_readOut (s : State) (v : Live) (j : Nat) : (s.setLive v).readOut j = s.readOut j := rfl
@[simp] theorem State.setLive_draw (s : State) (v : Live) (i' k : Nat) : (s.setLive v).draw i' k = s.draw i' k := rfl

/-! ### `State.setStatus` -/

@[simp] theorem State.setStatus_live (s : State) (v : BitVec 8) : (s.setStatus v).live = s.live := rfl
@[simp] theorem State.setStatus_cfgN (s : State) (v : BitVec 8) : (s.setStatus v).cfgN = s.cfgN := rfl
@[simp] theorem State.setStatus_cfgSR (s : State) (v : BitVec 8) : (s.setStatus v).cfgSR = s.cfgSR := rfl
@[simp] theorem State.setStatus_status (s : State) (v : BitVec 8) : (s.setStatus v).status = v := rfl
@[simp] theorem State.setStatus_result (s : State) (v : BitVec 8) : (s.setStatus v).result = s.result := rfl
@[simp] theorem State.setStatus_phase (s : State) (v : BitVec 8) : (s.setStatus v).phase = s.phase := rfl
@[simp] theorem State.setStatus_prev (s : State) (v : BitVec 8) : (s.setStatus v).prev = s.prev := rfl
@[simp] theorem State.setStatus_bq (s : State) (v : BitVec 8) : (s.setStatus v).bq = s.bq := rfl
@[simp] theorem State.setStatus_inBase (s : State) (v : BitVec 8) : (s.setStatus v).inBase = s.inBase := rfl
@[simp] theorem State.setStatus_outBase (s : State) (v : BitVec 8) : (s.setStatus v).outBase = s.outBase := rfl
@[simp] theorem State.setStatus_mem (s : State) (v : BitVec 8) : (s.setStatus v).mem = s.mem := rfl
@[simp] theorem State.setStatus_inbox (s : State) (v : BitVec 8) : (s.setStatus v).inbox = s.inbox := rfl
@[simp] theorem State.setStatus_observed (s : State) (v : BitVec 8) : (s.setStatus v).observed = s.observed := rfl
@[simp] theorem State.setStatus_draws (s : State) (v : BitVec 8) : (s.setStatus v).draws = s.draws := rfl
@[simp] theorem State.setStatus_inAddr (s : State) (v : BitVec 8) (j : Nat) : (s.setStatus v).inAddr j = s.inAddr j := rfl
@[simp] theorem State.setStatus_outAddr (s : State) (v : BitVec 8) (j : Nat) : (s.setStatus v).outAddr j = s.outAddr j := rfl
@[simp] theorem State.setStatus_readCell (s : State) (v : BitVec 8) (j : Nat) : (s.setStatus v).readCell j = s.readCell j := rfl
@[simp] theorem State.setStatus_readIn (s : State) (v : BitVec 8) (j : Nat) : (s.setStatus v).readIn j = s.readIn j := rfl
@[simp] theorem State.setStatus_readOut (s : State) (v : BitVec 8) (j : Nat) : (s.setStatus v).readOut j = s.readOut j := rfl
@[simp] theorem State.setStatus_draw (s : State) (v : BitVec 8) (i' k : Nat) : (s.setStatus v).draw i' k = s.draw i' k := rfl

/-! ### `State.setResult` -/

@[simp] theorem State.setResult_live (s : State) (v : Word) : (s.setResult v).live = s.live := rfl
@[simp] theorem State.setResult_cfgN (s : State) (v : Word) : (s.setResult v).cfgN = s.cfgN := rfl
@[simp] theorem State.setResult_cfgSR (s : State) (v : Word) : (s.setResult v).cfgSR = s.cfgSR := rfl
@[simp] theorem State.setResult_status (s : State) (v : Word) : (s.setResult v).status = s.status := rfl
@[simp] theorem State.setResult_result (s : State) (v : Word) : (s.setResult v).result = v := rfl
@[simp] theorem State.setResult_phase (s : State) (v : Word) : (s.setResult v).phase = s.phase := rfl
@[simp] theorem State.setResult_prev (s : State) (v : Word) : (s.setResult v).prev = s.prev := rfl
@[simp] theorem State.setResult_bq (s : State) (v : Word) : (s.setResult v).bq = s.bq := rfl
@[simp] theorem State.setResult_inBase (s : State) (v : Word) : (s.setResult v).inBase = s.inBase := rfl
@[simp] theorem State.setResult_outBase (s : State) (v : Word) : (s.setResult v).outBase = s.outBase := rfl
@[simp] theorem State.setResult_mem (s : State) (v : Word) : (s.setResult v).mem = s.mem := rfl
@[simp] theorem State.setResult_inbox (s : State) (v : Word) : (s.setResult v).inbox = s.inbox := rfl
@[simp] theorem State.setResult_observed (s : State) (v : Word) : (s.setResult v).observed = s.observed := rfl
@[simp] theorem State.setResult_draws (s : State) (v : Word) : (s.setResult v).draws = s.draws := rfl
@[simp] theorem State.setResult_inAddr (s : State) (v : Word) (j : Nat) : (s.setResult v).inAddr j = s.inAddr j := rfl
@[simp] theorem State.setResult_outAddr (s : State) (v : Word) (j : Nat) : (s.setResult v).outAddr j = s.outAddr j := rfl
@[simp] theorem State.setResult_readCell (s : State) (v : Word) (j : Nat) : (s.setResult v).readCell j = s.readCell j := rfl
@[simp] theorem State.setResult_readIn (s : State) (v : Word) (j : Nat) : (s.setResult v).readIn j = s.readIn j := rfl
@[simp] theorem State.setResult_readOut (s : State) (v : Word) (j : Nat) : (s.setResult v).readOut j = s.readOut j := rfl
@[simp] theorem State.setResult_draw (s : State) (v : Word) (i' k : Nat) : (s.setResult v).draw i' k = s.draw i' k := rfl

/-! ### `State.setPhase` -/

@[simp] theorem State.setPhase_live (s : State) (v : F32) : (s.setPhase v).live = s.live := rfl
@[simp] theorem State.setPhase_cfgN (s : State) (v : F32) : (s.setPhase v).cfgN = s.cfgN := rfl
@[simp] theorem State.setPhase_cfgSR (s : State) (v : F32) : (s.setPhase v).cfgSR = s.cfgSR := rfl
@[simp] theorem State.setPhase_status (s : State) (v : F32) : (s.setPhase v).status = s.status := rfl
@[simp] theorem State.setPhase_result (s : State) (v : F32) : (s.setPhase v).result = s.result := rfl
@[simp] theorem State.setPhase_phase (s : State) (v : F32) : (s.setPhase v).phase = v := rfl
@[simp] theorem State.setPhase_prev (s : State) (v : F32) : (s.setPhase v).prev = s.prev := rfl
@[simp] theorem State.setPhase_bq (s : State) (v : F32) : (s.setPhase v).bq = s.bq := rfl
@[simp] theorem State.setPhase_inBase (s : State) (v : F32) : (s.setPhase v).inBase = s.inBase := rfl
@[simp] theorem State.setPhase_outBase (s : State) (v : F32) : (s.setPhase v).outBase = s.outBase := rfl
@[simp] theorem State.setPhase_mem (s : State) (v : F32) : (s.setPhase v).mem = s.mem := rfl
@[simp] theorem State.setPhase_inbox (s : State) (v : F32) : (s.setPhase v).inbox = s.inbox := rfl
@[simp] theorem State.setPhase_observed (s : State) (v : F32) : (s.setPhase v).observed = s.observed := rfl
@[simp] theorem State.setPhase_draws (s : State) (v : F32) : (s.setPhase v).draws = s.draws := rfl
@[simp] theorem State.setPhase_inAddr (s : State) (v : F32) (j : Nat) : (s.setPhase v).inAddr j = s.inAddr j := rfl
@[simp] theorem State.setPhase_outAddr (s : State) (v : F32) (j : Nat) : (s.setPhase v).outAddr j = s.outAddr j := rfl
@[simp] theorem State.setPhase_readCell (s : State) (v : F32) (j : Nat) : (s.setPhase v).readCell j = s.readCell j := rfl
@[simp] theorem State.setPhase_readIn (s : State) (v : F32) (j : Nat) : (s.setPhase v).readIn j = s.readIn j := rfl
@[simp] theorem State.setPhase_readOut (s : State) (v : F32) (j : Nat) : (s.setPhase v).readOut j = s.readOut j := rfl
@[simp] theorem State.setPhase_draw (s : State) (v : F32) (i' k : Nat) : (s.setPhase v).draw i' k = s.draw i' k := rfl

/-! ### `State.setPrev` -/

@[simp] theorem State.setPrev_live (s : State) (v : F32) : (s.setPrev v).live = s.live := rfl
@[simp] theorem State.setPrev_cfgN (s : State) (v : F32) : (s.setPrev v).cfgN = s.cfgN := rfl
@[simp] theorem State.setPrev_cfgSR (s : State) (v : F32) : (s.setPrev v).cfgSR = s.cfgSR := rfl
@[simp] theorem State.setPrev_status (s : State) (v : F32) : (s.setPrev v).status = s.status := rfl
@[simp] theorem State.setPrev_result (s : State) (v : F32) : (s.setPrev v).result = s.result := rfl
@[simp] theorem State.setPrev_phase (s : State) (v : F32) : (s.setPrev v).phase = s.phase := rfl
@[simp] theorem State.setPrev_prev (s : State) (v : F32) : (s.setPrev v).prev = v := rfl
@[simp] theorem State.setPrev_bq (s : State) (v : F32) : (s.setPrev v).bq = s.bq := rfl
@[simp] theorem State.setPrev_inBase (s : State) (v : F32) : (s.setPrev v).inBase = s.inBase := rfl
@[simp] theorem State.setPrev_outBase (s : State) (v : F32) : (s.setPrev v).outBase = s.outBase := rfl
@[simp] theorem State.setPrev_mem (s : State) (v : F32) : (s.setPrev v).mem = s.mem := rfl
@[simp] theorem State.setPrev_inbox (s : State) (v : F32) : (s.setPrev v).inbox = s.inbox := rfl
@[simp] theorem State.setPrev_observed (s : State) (v : F32) : (s.setPrev v).observed = s.observed := rfl
@[simp] theorem State.setPrev_draws (s : State) (v : F32) : (s.setPrev v).draws = s.draws := rfl
@[simp] theorem State.setPrev_inAddr (s : State) (v : F32) (j : Nat) : (s.setPrev v).inAddr j = s.inAddr j := rfl
@[simp] theorem State.setPrev_outAddr (s : State) (v : F32) (j : Nat) : (s.setPrev v).outAddr j = s.outAddr j := rfl
@[simp] theorem State.setPrev_readCell (s : State) (v : F32) (j : Nat) : (s.setPrev v).readCell j = s.readCell j := rfl
@[simp] theorem State.setPrev_readIn (s : State) (v : F32) (j : Nat) : (s.setPrev v).readIn j = s.readIn j := rfl
@[simp] theorem State.setPrev_readOut (s : State) (v : F32) (j : Nat) : (s.setPrev v).readOut j = s.readOut j := rfl
@[simp] theorem State.setPrev_draw (s : State) (v : F32) (i' k : Nat) : (s.setPrev v).draw i' k = s.draw i' k := rfl

/-! ### `State.setBq` -/

@[simp] theorem State.setBq_live (s : State) (v : Vector Biquad 7) : (s.setBq v).live = s.live := rfl
@[simp] theorem State.setBq_cfgN (s : State) (v : Vector Biquad 7) : (s.setBq v).cfgN = s.cfgN := rfl
@[simp] theorem State.setBq_cfgSR (s : State) (v : Vector Biquad 7) : (s.setBq v).cfgSR = s.cfgSR := rfl
@[simp] theorem State.setBq_status (s : State) (v : Vector Biquad 7) : (s.setBq v).status = s.status := rfl
@[simp] theorem State.setBq_result (s : State) (v : Vector Biquad 7) : (s.setBq v).result = s.result := rfl
@[simp] theorem State.setBq_phase (s : State) (v : Vector Biquad 7) : (s.setBq v).phase = s.phase := rfl
@[simp] theorem State.setBq_prev (s : State) (v : Vector Biquad 7) : (s.setBq v).prev = s.prev := rfl
@[simp] theorem State.setBq_bq (s : State) (v : Vector Biquad 7) : (s.setBq v).bq = v := rfl
@[simp] theorem State.setBq_inBase (s : State) (v : Vector Biquad 7) : (s.setBq v).inBase = s.inBase := rfl
@[simp] theorem State.setBq_outBase (s : State) (v : Vector Biquad 7) : (s.setBq v).outBase = s.outBase := rfl
@[simp] theorem State.setBq_mem (s : State) (v : Vector Biquad 7) : (s.setBq v).mem = s.mem := rfl
@[simp] theorem State.setBq_inbox (s : State) (v : Vector Biquad 7) : (s.setBq v).inbox = s.inbox := rfl
@[simp] theorem State.setBq_observed (s : State) (v : Vector Biquad 7) : (s.setBq v).observed = s.observed := rfl
@[simp] theorem State.setBq_draws (s : State) (v : Vector Biquad 7) : (s.setBq v).draws = s.draws := rfl
@[simp] theorem State.setBq_inAddr (s : State) (v : Vector Biquad 7) (j : Nat) : (s.setBq v).inAddr j = s.inAddr j := rfl
@[simp] theorem State.setBq_outAddr (s : State) (v : Vector Biquad 7) (j : Nat) : (s.setBq v).outAddr j = s.outAddr j := rfl
@[simp] theorem State.setBq_readCell (s : State) (v : Vector Biquad 7) (j : Nat) : (s.setBq v).readCell j = s.readCell j := rfl
@[simp] theorem State.setBq_readIn (s : State) (v : Vector Biquad 7) (j : Nat) : (s.setBq v).readIn j = s.readIn j := rfl
@[simp] theorem State.setBq_readOut (s : State) (v : Vector Biquad 7) (j : Nat) : (s.setBq v).readOut j = s.readOut j := rfl
@[simp] theorem State.setBq_draw (s : State) (v : Vector Biquad 7) (i' k : Nat) : (s.setBq v).draw i' k = s.draw i' k := rfl

/-! ### `State.setMem` -/

@[simp] theorem State.setMem_live (s : State) (v : Memory) : (s.setMem v).live = s.live := rfl
@[simp] theorem State.setMem_cfgN (s : State) (v : Memory) : (s.setMem v).cfgN = s.cfgN := rfl
@[simp] theorem State.setMem_cfgSR (s : State) (v : Memory) : (s.setMem v).cfgSR = s.cfgSR := rfl
@[simp] theorem State.setMem_status (s : State) (v : Memory) : (s.setMem v).status = s.status := rfl
@[simp] theorem State.setMem_result (s : State) (v : Memory) : (s.setMem v).result = s.result := rfl
@[simp] theorem State.setMem_phase (s : State) (v : Memory) : (s.setMem v).phase = s.phase := rfl
@[simp] theorem State.setMem_prev (s : State) (v : Memory) : (s.setMem v).prev = s.prev := rfl
@[simp] theorem State.setMem_bq (s : State) (v : Memory) : (s.setMem v).bq = s.bq := rfl
@[simp] theorem State.setMem_inBase (s : State) (v : Memory) : (s.setMem v).inBase = s.inBase := rfl
@[simp] theorem State.setMem_outBase (s : State) (v : Memory) : (s.setMem v).outBase = s.outBase := rfl
@[simp] theorem State.setMem_mem (s : State) (v : Memory) : (s.setMem v).mem = v := rfl
@[simp] theorem State.setMem_inbox (s : State) (v : Memory) : (s.setMem v).inbox = s.inbox := rfl
@[simp] theorem State.setMem_observed (s : State) (v : Memory) : (s.setMem v).observed = s.observed := rfl
@[simp] theorem State.setMem_draws (s : State) (v : Memory) : (s.setMem v).draws = s.draws := rfl
@[simp] theorem State.setMem_inAddr (s : State) (v : Memory) (j : Nat) : (s.setMem v).inAddr j = s.inAddr j := rfl
@[simp] theorem State.setMem_outAddr (s : State) (v : Memory) (j : Nat) : (s.setMem v).outAddr j = s.outAddr j := rfl
@[simp] theorem State.setMem_draw (s : State) (v : Memory) (i' k : Nat) : (s.setMem v).draw i' k = s.draw i' k := rfl

/-! ### `State.setInbox` -/

@[simp] theorem State.setInbox_live (s : State) (v : List HostMove) : (s.setInbox v).live = s.live := rfl
@[simp] theorem State.setInbox_cfgN (s : State) (v : List HostMove) : (s.setInbox v).cfgN = s.cfgN := rfl
@[simp] theorem State.setInbox_cfgSR (s : State) (v : List HostMove) : (s.setInbox v).cfgSR = s.cfgSR := rfl
@[simp] theorem State.setInbox_status (s : State) (v : List HostMove) : (s.setInbox v).status = s.status := rfl
@[simp] theorem State.setInbox_result (s : State) (v : List HostMove) : (s.setInbox v).result = s.result := rfl
@[simp] theorem State.setInbox_phase (s : State) (v : List HostMove) : (s.setInbox v).phase = s.phase := rfl
@[simp] theorem State.setInbox_prev (s : State) (v : List HostMove) : (s.setInbox v).prev = s.prev := rfl
@[simp] theorem State.setInbox_bq (s : State) (v : List HostMove) : (s.setInbox v).bq = s.bq := rfl
@[simp] theorem State.setInbox_inBase (s : State) (v : List HostMove) : (s.setInbox v).inBase = s.inBase := rfl
@[simp] theorem State.setInbox_outBase (s : State) (v : List HostMove) : (s.setInbox v).outBase = s.outBase := rfl
@[simp] theorem State.setInbox_mem (s : State) (v : List HostMove) : (s.setInbox v).mem = s.mem := rfl
@[simp] theorem State.setInbox_inbox (s : State) (v : List HostMove) : (s.setInbox v).inbox = v := rfl
@[simp] theorem State.setInbox_observed (s : State) (v : List HostMove) : (s.setInbox v).observed = s.observed := rfl
@[simp] theorem State.setInbox_draws (s : State) (v : List HostMove) : (s.setInbox v).draws = s.draws := rfl
@[simp] theorem State.setInbox_inAddr (s : State) (v : List HostMove) (j : Nat) : (s.setInbox v).inAddr j = s.inAddr j := rfl
@[simp] theorem State.setInbox_outAddr (s : State) (v : List HostMove) (j : Nat) : (s.setInbox v).outAddr j = s.outAddr j := rfl
@[simp] theorem State.setInbox_readCell (s : State) (v : List HostMove) (j : Nat) : (s.setInbox v).readCell j = s.readCell j := rfl
@[simp] theorem State.setInbox_readIn (s : State) (v : List HostMove) (j : Nat) : (s.setInbox v).readIn j = s.readIn j := rfl
@[simp] theorem State.setInbox_readOut (s : State) (v : List HostMove) (j : Nat) : (s.setInbox v).readOut j = s.readOut j := rfl
@[simp] theorem State.setInbox_draw (s : State) (v : List HostMove) (i' k : Nat) : (s.setInbox v).draw i' k = s.draw i' k := rfl

/-! ### `State.observe` -/

@[simp] theorem State.observe_live (s : State) (o : Observation) : (s.observe o).live = s.live := rfl
@[simp] theorem State.observe_cfgN (s : State) (o : Observation) : (s.observe o).cfgN = s.cfgN := rfl
@[simp] theorem State.observe_cfgSR (s : State) (o : Observation) : (s.observe o).cfgSR = s.cfgSR := rfl
@[simp] theorem State.observe_status (s : State) (o : Observation) : (s.observe o).status = s.status := rfl
@[simp] theorem State.observe_result (s : State) (o : Observation) : (s.observe o).result = s.result := rfl
@[simp] theorem State.observe_phase (s : State) (o : Observation) : (s.observe o).phase = s.phase := rfl
@[simp] theorem State.observe_prev (s : State) (o : Observation) : (s.observe o).prev = s.prev := rfl
@[simp] theorem State.observe_bq (s : State) (o : Observation) : (s.observe o).bq = s.bq := rfl
@[simp] theorem State.observe_inBase (s : State) (o : Observation) : (s.observe o).inBase = s.inBase := rfl
@[simp] theorem State.observe_outBase (s : State) (o : Observation) : (s.observe o).outBase = s.outBase := rfl
@[simp] theorem State.observe_mem (s : State) (o : Observation) : (s.observe o).mem = s.mem := rfl
@[simp] theorem State.observe_inbox (s : State) (o : Observation) : (s.observe o).inbox = s.inbox := rfl
@[simp] theorem State.observe_observed (s : State) (o : Observation) : (s.observe o).observed = s.observed ++ [o] := rfl
@[simp] theorem State.observe_draws (s : State) (o : Observation) : (s.observe o).draws = s.draws := rfl
@[simp] theorem State.observe_inAddr (s : State) (o : Observation) (j : Nat) : (s.observe o).inAddr j = s.inAddr j := rfl
@[simp] theorem State.observe_outAddr (s : State) (o : Observation) (j : Nat) : (s.observe o).outAddr j = s.outAddr j := rfl
@[simp] theorem State.observe_readCell (s : State) (o : Observation) (j : Nat) : (s.observe o).readCell j = s.readCell j := rfl
@[simp] theorem State.observe_readIn (s : State) (o : Observation) (j : Nat) : (s.observe o).readIn j = s.readIn j := rfl
@[simp] theorem State.observe_readOut (s : State) (o : Observation) (j : Nat) : (s.observe o).readOut j = s.readOut j := rfl
@[simp] theorem State.observe_draw (s : State) (o : Observation) (i' k : Nat) : (s.observe o).draw i' k = s.draw i' k := rfl

/-! ### `State.nextDraws` -/

@[simp] theorem State.nextDraws_live (s : State) : (s.nextDraws).live = s.live := rfl
@[simp] theorem State.nextDraws_cfgN (s : State) : (s.nextDraws).cfgN = s.cfgN := rfl
@[simp] theorem State.nextDraws_cfgSR (s : State) : (s.nextDraws).cfgSR = s.cfgSR := rfl
@[simp] theorem State.nextDraws_status (s : State) : (s.nextDraws).status = s.status := rfl
@[simp] theorem State.nextDraws_result (s : State) : (s.nextDraws).result = s.result := rfl
@[simp] theorem State.nextDraws_phase (s : State) : (s.nextDraws).phase = s.phase := rfl
@[simp] theorem State.nextDraws_prev (s : State) : (s.nextDraws).prev = s.prev := rfl
@[simp] theorem State.nextDraws_bq (s : State) : (s.nextDraws).bq = s.bq := rfl
@[simp] theorem State.nextDraws_inBase (s : State) : (s.nextDraws).inBase = s.inBase := rfl
@[simp] theorem State.nextDraws_outBase (s : State) : (s.nextDraws).outBase = s.outBase := rfl
@[simp] theorem State.nextDraws_mem (s : State) : (s.nextDraws).mem = s.mem := rfl
@[simp] theorem State.nextDraws_inbox (s : State) : (s.nextDraws).inbox = s.inbox := rfl
@[simp] theorem State.nextDraws_observed (s : State) : (s.nextDraws).observed = s.observed := rfl
@[simp] theorem State.nextDraws_draws (s : State) : (s.nextDraws).draws = s.draws + 1 := rfl
@[simp] theorem State.nextDraws_inAddr (s : State) (j : Nat) : (s.nextDraws).inAddr j = s.inAddr j := rfl
@[simp] theorem State.nextDraws_outAddr (s : State) (j : Nat) : (s.nextDraws).outAddr j = s.outAddr j := rfl
@[simp] theorem State.nextDraws_readCell (s : State) (j : Nat) : (s.nextDraws).readCell j = s.readCell j := rfl
@[simp] theorem State.nextDraws_readIn (s : State) (j : Nat) : (s.nextDraws).readIn j = s.readIn j := rfl
@[simp] theorem State.nextDraws_readOut (s : State) (j : Nat) : (s.nextDraws).readOut j = s.readOut j := rfl

/-! ### `State.writeCell` -/

@[simp] theorem State.writeCell_live (s : State) (a : Nat) (v : Word) : (s.writeCell a v).live = s.live := rfl
@[simp] theorem State.writeCell_cfgN (s : State) (a : Nat) (v : Word) : (s.writeCell a v).cfgN = s.cfgN := rfl
@[simp] theorem State.writeCell_cfgSR (s : State) (a : Nat) (v : Word) : (s.writeCell a v).cfgSR = s.cfgSR := rfl
@[simp] theorem State.writeCell_status (s : State) (a : Nat) (v : Word) : (s.writeCell a v).status = s.status := rfl
@[simp] theorem State.writeCell_result (s : State) (a : Nat) (v : Word) : (s.writeCell a v).result = s.result := rfl
@[simp] theorem State.writeCell_phase (s : State) (a : Nat) (v : Word) : (s.writeCell a v).phase = s.phase := rfl
@[simp] theorem State.writeCell_prev (s : State) (a : Nat) (v : Word) : (s.writeCell a v).prev = s.prev := rfl
@[simp] theorem State.writeCell_bq (s : State) (a : Nat) (v : Word) : (s.writeCell a v).bq = s.bq := rfl
@[simp] theorem State.writeCell_inBase (s : State) (a : Nat) (v : Word) : (s.writeCell a v).inBase = s.inBase := rfl
@[simp] theorem State.writeCell_outBase (s : State) (a : Nat) (v : Word) : (s.writeCell a v).outBase = s.outBase := rfl
@[simp] theorem State.writeCell_mem (s : State) (a : Nat) (v : Word) : (s.writeCell a v).mem = Memory.writeWord s.mem a v := rfl
@[simp] theorem State.writeCell_inbox (s : State) (a : Nat) (v : Word) : (s.writeCell a v).inbox = s.inbox := rfl
@[simp] theorem State.writeCell_observed (s : State) (a : Nat) (v : Word) : (s.writeCell a v).observed = s.observed := rfl
@[simp] theorem State.writeCell_draws (s : State) (a : Nat) (v : Word) : (s.writeCell a v).draws = s.draws := rfl
@[simp] theorem State.writeCell_inAddr (s : State) (a : Nat) (v : Word) (j : Nat) : (s.writeCell a v).inAddr j = s.inAddr j := rfl
@[simp] theorem State.writeCell_outAddr (s : State) (a : Nat) (v : Word) (j : Nat) : (s.writeCell a v).outAddr j = s.outAddr j := rfl
@[simp] theorem State.writeCell_draw (s : State) (a : Nat) (v : Word) (i' k : Nat) : (s.writeCell a v).draw i' k = s.draw i' k := rfl

/-! ### `State.writeOut` -/

@[simp] theorem State.writeOut_live (s : State) (i : Nat) (v : F32) : (s.writeOut i v).live = s.live := rfl
@[simp] theorem State.writeOut_cfgN (s : State) (i : Nat) (v : F32) : (s.writeOut i v).cfgN = s.cfgN := rfl
@[simp] theorem State.writeOut_cfgSR (s : State) (i : Nat) (v : F32) : (s.writeOut i v).cfgSR = s.cfgSR := rfl
@[simp] theorem State.writeOut_status (s : State) (i : Nat) (v : F32) : (s.writeOut i v).status = s.status := rfl
@[simp] theorem State.writeOut_result (s : State) (i : Nat) (v : F32) : (s.writeOut i v).result = s.result := rfl
@[simp] theorem State.writeOut_phase (s : State) (i : Nat) (v : F32) : (s.writeOut i v).phase = s.phase := rfl
@[simp] theorem State.writeOut_prev (s : State) (i : Nat) (v : F32) : (s.writeOut i v).prev = s.prev := rfl
@[simp] theorem State.writeOut_bq (s : State) (i : Nat) (v : F32) : (s.writeOut i v).bq = s.bq := rfl
@[simp] theorem State.writeOut_inBase (s : State) (i : Nat) (v : F32) : (s.writeOut i v).inBase = s.inBase := rfl
@[simp] theorem State.writeOut_outBase (s : State) (i : Nat) (v : F32) : (s.writeOut i v).outBase = s.outBase := rfl
@[simp] theorem State.writeOut_mem (s : State) (i : Nat) (v : F32) : (s.writeOut i v).mem = Memory.writeWord s.mem (s.outAddr i) v := rfl
@[simp] theorem State.writeOut_inbox (s : State) (i : Nat) (v : F32) : (s.writeOut i v).inbox = s.inbox := rfl
@[simp] theorem State.writeOut_observed (s : State) (i : Nat) (v : F32) : (s.writeOut i v).observed = s.observed := rfl
@[simp] theorem State.writeOut_draws (s : State) (i : Nat) (v : F32) : (s.writeOut i v).draws = s.draws := rfl
@[simp] theorem State.writeOut_inAddr (s : State) (i : Nat) (v : F32) (j : Nat) : (s.writeOut i v).inAddr j = s.inAddr j := rfl
@[simp] theorem State.writeOut_outAddr (s : State) (i : Nat) (v : F32) (j : Nat) : (s.writeOut i v).outAddr j = s.outAddr j := rfl
@[simp] theorem State.writeOut_draw (s : State) (i : Nat) (v : F32) (i' k : Nat) : (s.writeOut i v).draw i' k = s.draw i' k := rfl

end Sys2Proof.Machine
end

