-- ==== Sys2Proof/Laws/Regions.lean ====
section
/-! SUPPORT. The two regions: what writing an output cell leaves in every other cell, and what an effect
operation may change at most. -/

namespace Sys2Proof.Machine

theorem inRegion_iff (base : Word) (n a : Nat) : inRegion base n a = true ↔ base.toNat ≤ a ∧ a < base.toNat + 4 * n := by
  simp [inRegion]

/-- The lawful placements, as inequalities (spec/20_memory.md R72, R73). -/
theorem placementOk_iff (n : Nat) (inB outB : Word) :
    placementOk n inB outB = true ↔
      inB.toNat % 4 = 0 ∧ outB.toNat % 4 = 0 ∧ inB.toNat + 4 * n ≤ 4294967296 ∧ outB.toNat + 4 * n ≤ 4294967296 ∧
        (inB.toNat + 4 * n ≤ outB.toNat ∨ outB.toNat + 4 * n ≤ inB.toNat) := by
  simp [placementOk, and_assoc]

/-- The reset arguments with a meaning, as inequalities (spec/70_reset_and_hazards.md R261). -/
theorem resetArgsOk_iff (n : Nat) (r : F32) :
    resetArgsOk n r = true ↔
      1 ≤ n ∧ n ≤ Config.maxBufferSize ∧ F32.isFinite r = true ∧ F32.isZero r = false ∧ F32.neg r = false := by
  simp [resetArgsOk, and_assoc]

theorem writeOut_readOut_same (s : State) (i : Nat) (v : F32) : (s.writeOut i v).readOut i = v :=
  readWord_writeWord_same _ _ _

theorem writeOut_readOut_other (s : State) (i j : Nat) (v : F32) (h : j ≠ i) :
    (s.writeOut i v).readOut j = s.readOut j := by
  apply readWord_writeWord_apart
  simp only [State.outAddr, cellAddr, State.writeOut, State.writeCell, State.setMem]
  omega

/-- Writing an output cell leaves every byte outside the output region alone. -/
theorem writeOut_byte (s : State) (i a : Nat) (v : F32) (hi : i < s.cfgN) (ha : s.OutsideOutput a) :
    Memory.readByte (s.writeOut i v).mem a = Memory.readByte s.mem a := by
  apply readByte_writeWord_outside
  have := (inRegion_iff s.outBase s.cfgN a).not.mp (by simpa [State.OutsideOutput] using ha)
  simp only [State.outAddr, cellAddr]
  omega

/-- The bytes of the input region lie outside the output region. -/
theorem Placed_inByte (s : State) (h : s.Placed) (i k : Nat) (hi : i < s.cfgN) (hk : k < 4) :
    s.OutsideOutput (s.inAddr i + k) := by
  have hp := (placementOk_iff _ _ _).mp h
  rw [State.OutsideOutput, Bool.eq_false_iff, Ne, inRegion_iff, State.inAddr, cellAddr]
  omega

/-- What an effect operation may change at most: the DSP registers, and bytes of the output region. -/
structure Effect (s t : State) : Prop where
  live : t.live = s.live
  cfgN : t.cfgN = s.cfgN
  cfgSR : t.cfgSR = s.cfgSR
  status : t.status = s.status
  result : t.result = s.result
  inBase : t.inBase = s.inBase
  outBase : t.outBase = s.outBase
  inbox : t.inbox = s.inbox
  observed : t.observed = s.observed
  draws : t.draws = s.draws
  bytes : ∀ a, s.OutsideOutput a → Memory.readByte t.mem a = Memory.readByte s.mem a
  wf : Memory.wf s.mem = true → Memory.wf t.mem = true
  all : ∀ p : Nat → Bool, s.mem.all (fun c => p c.1) = true → (∀ a, inRegion s.outBase s.cfgN a = true → p a = true) →
    t.mem.all (fun c => p c.1) = true

theorem Effect.refl (s : State) : Effect s s :=
  ⟨rfl, rfl, rfl, rfl, rfl, rfl, rfl, rfl, rfl, rfl, fun _ _ => rfl, id, fun _ h _ => h⟩

theorem Effect.trans {s t u : State} (h : Effect s t) (k : Effect t u) : Effect s u where
  live := k.live.trans h.live
  cfgN := k.cfgN.trans h.cfgN
  cfgSR := k.cfgSR.trans h.cfgSR
  status := k.status.trans h.status
  result := k.result.trans h.result
  inBase := k.inBase.trans h.inBase
  outBase := k.outBase.trans h.outBase
  inbox := k.inbox.trans h.inbox
  observed := k.observed.trans h.observed
  draws := k.draws.trans h.draws
  bytes a ha := by
    rw [k.bytes a (by rw [State.OutsideOutput, h.outBase, h.cfgN]; exact ha), h.bytes a ha]
  wf hw := k.wf (h.wf hw)
  all p hs ho := k.all p (h.all p hs ho) (by rw [h.outBase, h.cfgN]; exact ho)

/-- A change of the DSP registers alone. -/
theorem Effect.ofRegs (s t : State) (h : t = { s with phase := t.phase, prev := t.prev, bq := t.bq }) : Effect s t := by
  rw [h]
  exact ⟨rfl, rfl, rfl, rfl, rfl, rfl, rfl, rfl, rfl, rfl, fun _ _ => rfl, id, fun _ h _ => h⟩

/-- Writing an output cell is an effect. -/
theorem Effect.writeOut (s : State) (i : Nat) (v : F32) (hi : i < s.cfgN) : Effect s (s.writeOut i v) where
  live := rfl
  cfgN := rfl
  cfgSR := rfl
  status := rfl
  result := rfl
  inBase := rfl
  outBase := rfl
  inbox := rfl
  observed := rfl
  draws := rfl
  bytes a ha := writeOut_byte s i a v hi ha
  wf hw := wf_writeWord _ _ _ hw
  all p hs ho := all_writeWord p _ _ _ hs fun k hk => ho _ (by
    rw [inRegion_iff]; simp only [State.outAddr, cellAddr]; omega)

/-- An effect leaves the input region alone, cell by cell. -/
theorem Effect.readIn {s t : State} (h : Effect s t) (hp : s.Placed) (i : Nat) (hi : i < s.cfgN) : t.readIn i = s.readIn i := by
  have : t.inAddr i = s.inAddr i := by rw [State.inAddr, State.inAddr, h.inBase]
  rw [State.readIn, this]
  exact readWord_congr _ _ _ fun k hk => h.bytes _ (Placed_inByte s hp i k hi hk)

theorem Effect.placed {s t : State} (h : Effect s t) (hp : s.Placed) : t.Placed := by
  rw [State.Placed, h.cfgN, h.inBase, h.outBase]; exact hp

/-- An effect keeps the invariant. -/
theorem Effect.inv {s t : State} (h : Effect s t) (hi : s.Inv) : t.Inv := by
  obtain ⟨hw, hs, ha⟩ := hi
  refine ⟨h.wf hw, by rw [h.status]; exact hs, fun hl => ?_⟩
  obtain ⟨hr, hp, hc⟩ := ha (by rw [← h.live]; exact hl)
  refine ⟨by rw [h.cfgN, h.cfgSR]; exact hr, h.placed hp, ?_⟩
  rw [State.Confined, h.inBase, h.outBase, h.cfgN]
  exact h.all (fun a => inRegion s.inBase s.cfgN a || inRegion s.outBase s.cfgN a) hc fun a ha => by simp [ha]

/-! ### The per-sample loop -/

@[simp] theorem forSamples_zero {α : Type} (body : Nat → α → α) (a : α) : forSamples body 0 a = a := rfl

theorem forSamples_succ {α : Type} (body : Nat → α → α) (n : Nat) (a : α) :
    forSamples body (n + 1) a = body n (forSamples body n a) := rfl

/-- An invariant of the loop: it holds before iteration 0 and each iteration carries it on. -/
theorem forSamples_induct {α : Type} (body : Nat → α → α) (P : Nat → α → Prop) (n : Nat) (a : α) (h0 : P 0 a)
    (hstep : ∀ i b, i < n → P i b → P (i + 1) (body i b)) : P n (forSamples body n a) := by
  induction n with
  | zero => exact h0
  | succ n ih => exact hstep n _ (by omega) (ih fun i b hi => hstep i b (by omega))

/-- A loop body that is an effect and writes no output cell but that of its own index. -/
structure SampleBody (body : Nat → State → State) : Prop where
  effect : ∀ i s, i < s.cfgN → Effect s (body i s)
  others : ∀ i j s, j ≠ i → (body i s).readOut j = s.readOut j

theorem SampleBody.loop {body : Nat → State → State} (h : SampleBody body) (s : State) (n : Nat) (hn : n ≤ s.cfgN) :
    Effect s (forSamples body n s) := by
  refine forSamples_induct body (fun _ t => Effect s t) n s (Effect.refl s) fun i b hi hb => ?_
  exact hb.trans (h.effect i b (by rw [hb.cfgN]; omega))

/-- An output cell at or beyond the iterations done holds what it held. -/
theorem SampleBody.readOut_later {body : Nat → State → State} (h : SampleBody body) (s : State) (n j : Nat) (hj : n ≤ j) :
    (forSamples body n s).readOut j = s.readOut j := by
  induction n with
  | zero => rfl
  | succ n ih => rw [forSamples_succ, h.others n j _ (by omega), ih (by omega)]

/-- An output cell holds what its own iteration wrote. -/
theorem SampleBody.readOut_done {body : Nat → State → State} (h : SampleBody body) (s : State) (n j : Nat) (hj : j < n) :
    (forSamples body n s).readOut j = (body j (forSamples body j s)).readOut j := by
  induction n with
  | zero => omega
  | succ n ih =>
    rw [forSamples_succ]
    rcases Nat.lt_succ_iff_lt_or_eq.mp hj with hlt | rfl
    · rw [h.others n j _ (by omega), ih hlt]
    · rfl

/-- The loop leaves the input region alone, cell by cell. -/
theorem SampleBody.readIn {body : Nat → State → State} (h : SampleBody body) (s : State) (hp : s.Placed) (n i : Nat)
    (hn : n ≤ s.cfgN) (hi : i < s.cfgN) : (forSamples body n s).readIn i = s.readIn i :=
  (h.loop s n hn).readIn hp i hi

/-- The free values of a command are those of the state it found. -/
theorem SampleBody.draw {body : Nat → State → State} (h : SampleBody body) (s : State) (n : Nat) (hn : n ≤ s.cfgN) :
    (forSamples body n s).draw = s.draw := by
  unfold State.draw; rw [(h.loop s n hn).draws]

/-- An output cell stays as its own iteration wrote it. -/
theorem SampleBody.readOut_stays {body : Nat → State → State} (h : SampleBody body) (s : State) (n j : Nat) (hj : j < n) :
    (forSamples body n s).readOut j = (forSamples body (j + 1) s).readOut j := by
  rw [h.readOut_done s n j hj, forSamples_succ]

end Sys2Proof.Machine
end

