-- ==== Sys2Proof/Laws/Commands.lean ====
section
/-! SUPPORT. For each command: its loop body is an effect on its own output cell, and what the body leaves in
the DSP registers it does not touch. -/

namespace Sys2Proof.Machine

@[simp] theorem complete_eq (s : State) : complete s = .next (s.setStatus statusOk) := rfl
@[simp] theorem completeDrawing_eq (s : State) : completeDrawing s = .next (s.nextDraws.setStatus statusOk) := rfl
@[simp] theorem raise_eq (e : ErrorName) (s : State) : raise e s = .next (s.setStatus (errorCode e)) := rfl

/-! ### PSHIFT -/

theorem pshiftCorrect_eq (x : F32) (i : Nat) (s : State) :
    pshiftCorrect x i s =
      { s with
        phase := if fge s.phase oneF then fsub (s.draw i 1) s.phase oneF else s.phase
        prev := if fge s.phase oneF then x else s.prev } := by
  unfold pshiftCorrect; split <;> rfl

theorem pshiftSample_body (pf : F32) : SampleBody (pshiftSample pf) where
  effect i s hi := by
    have h : Effect s (pshiftCorrect (s.readIn i) i (pshiftAccumulate pf i s)) := by
      apply Effect.ofRegs; rw [pshiftCorrect_eq]; rfl
    exact h.trans (Effect.writeOut _ _ _ (by rw [h.cfgN]; exact hi))
  others i j s hj := by
    simp only [pshiftSample]
    rw [writeOut_readOut_other _ _ _ _ hj, pshiftCorrect_eq]; rfl

/-- What one iteration leaves in `PHASE`. -/
theorem pshiftSample_phase (pf : F32) (i : Nat) (s : State) :
    (pshiftSample pf i s).phase =
      if fge (fadd (s.draw i 0) s.phase pf) oneF then fsub (s.draw i 1) (fadd (s.draw i 0) s.phase pf) oneF
      else fadd (s.draw i 0) s.phase pf := by
  simp only [pshiftSample, State.writeOut_phase, pshiftCorrect_eq]; rfl

/-- What one iteration leaves in `PREV`. -/
theorem pshiftSample_prev (pf : F32) (i : Nat) (s : State) :
    (pshiftSample pf i s).prev = if fge (fadd (s.draw i 0) s.phase pf) oneF then s.readIn i else s.prev := by
  simp only [pshiftSample, State.writeOut_prev, pshiftCorrect_eq]; rfl

/-- What one iteration leaves in its output cell. -/
theorem pshiftSample_readOut (pf : F32) (i : Nat) (s : State) :
    (pshiftSample pf i s).readOut i =
      fadd (s.draw i 4) (pshiftSample pf i s).prev
        (fmul (s.draw i 3) (fsub (s.draw i 2) (s.readIn i) (pshiftSample pf i s).prev) (pshiftSample pf i s).phase) := by
  rw [pshiftSample_prev, pshiftSample_phase]
  simp only [pshiftSample]
  rw [writeOut_readOut_same, pshiftCorrect_eq]; rfl

theorem pshiftSample_bq (pf : F32) (i : Nat) (s : State) : (pshiftSample pf i s).bq = s.bq := by
  simp only [pshiftSample, State.writeOut_bq, pshiftCorrect_eq]; rfl

/-! ### BASS -/

theorem bassSample_body (bf : F32) : SampleBody (bassSample bf) where
  effect i s hi := Effect.writeOut s i _ hi
  others i j s hj := writeOut_readOut_other s i j _ hj

/-! ### EQ7 -/

/-- A biquad step changes `bq` alone, and in it the history of its own stage. -/
theorem biquadStep_state (i : Nat) (k : Fin 7) (v : F32 × State) :
    (biquadStep i k v).2 =
      v.2.setBq (v.2.bq.set k (v.2.bq[k].shift v.1 (biquadOutput (v.2.biquadDraw i k) v.2.bq[k] v.1))) := rfl

/-- The cascade changes `bq` alone. -/
theorem foldl_biquad_state (i : Nat) (ks : List (Fin 7)) (v : F32 × State) :
    (ks.foldl (fun acc k => biquadStep i k acc) v).2 =
      v.2.setBq (ks.foldl (fun acc k => biquadStep i k acc) v).2.bq := by
  induction ks generalizing v with
  | nil => rfl
  | cons k ks ih => simp only [List.foldl_cons]; rw [ih, biquadStep_state]; rfl

theorem bank_state (i : Nat) (v : F32) (s : State) : (bank i v s).2 = s.setBq (bank i v s).2.bq :=
  foldl_biquad_state i stageOrder (v, s)

/-- One iteration of `EQ7` writes `bq` and its output cell. -/
theorem eq7Sample_eq (i : Nat) (s : State) :
    eq7Sample i s = (s.setBq (bank i (s.readIn i) s).2.bq).writeOut i (bank i (s.readIn i) s).1 := by
  rw [← bank_state]; rfl

theorem eq7Sample_body : SampleBody eq7Sample where
  effect i s hi := by
    rw [eq7Sample_eq]
    generalize (bank i (s.readIn i) s).2.bq = q
    exact (Effect.ofRegs s (s.setBq q) rfl).trans (Effect.writeOut _ _ _ hi)
  others i j s hj := by
    rw [eq7Sample_eq, writeOut_readOut_other _ _ _ _ hj, State.setBq_readOut]

theorem eq7Sample_phase (i : Nat) (s : State) : (eq7Sample i s).phase = s.phase := by
  rw [eq7Sample_eq, State.writeOut_phase, State.setBq_phase]

theorem eq7Sample_prev (i : Nat) (s : State) : (eq7Sample i s).prev = s.prev := by
  rw [eq7Sample_eq, State.writeOut_prev, State.setBq_prev]

/-! ### LOFI -/

/-- The value iteration `i` of `LOFI` writes. -/
theorem lofiSample_eq (levels dsf : F32) (i : Nat) (s : State) :
    lofiSample levels dsf i s =
      s.writeOut i (if lofiFresh dsf i s then lofiQuantize levels (s.readIn i) i s
        else if i = 0 then 0 else s.readOut (i - 1)) := by
  unfold lofiSample; split
  · rfl
  · split <;> rfl

theorem lofiSample_body (levels dsf : F32) : SampleBody (lofiSample levels dsf) where
  effect i s hi := by rw [lofiSample_eq]; exact Effect.writeOut s i _ hi
  others i j s hj := by rw [lofiSample_eq]; exact writeOut_readOut_other s i j _ hj

/-! ### COPY -/

theorem copySample_body : SampleBody copySample where
  effect i s hi := Effect.writeOut s i _ hi
  others i j s hj := writeOut_readOut_other s i j _ hj

/-! ### What each command answers -/

theorem execPshift_eq (pf : F32) (s : State) :
    execPshift pf s = .next ((forSamples (pshiftSample pf) s.cfgN s).nextDraws.setStatus statusOk) := rfl

theorem execBass_eq (db : F32) (s : State) :
    execBass db s = .next ((forSamples (bassSample (bassFactor db s)) s.cfgN s).nextDraws.setStatus statusOk) := rfl

theorem execEq7_seven (gains : List F32) (s : State) (h : gains.length = 7) :
    execEq7 gains s = .next ((forSamples eq7Sample s.cfgN s).nextDraws.setStatus statusOk) := by
  unfold execEq7; rw [if_neg (by simp [eq7Gains, h])]; rfl

theorem execEq7_other (gains : List F32) (s : State) (h : gains.length ≠ 7) :
    execEq7 gains s = .next (s.setStatus statusInvalidArgument) := by
  unfold execEq7; rw [if_pos (by simp [eq7Gains, h])]; rfl

theorem execLofi_eq (bd dsf : F32) (s : State) :
    execLofi bd dsf s =
      .next ((forSamples (lofiSample (lofiLevels bd s) dsf) s.cfgN s).nextDraws.setStatus statusOk) := rfl

theorem execCopy_eq (s : State) : execCopy s = .next ((forSamples copySample s.cfgN s).setStatus statusOk) := rfl

/-- Everything a command can do, said once: an effect and `STATUS` = 0, the error of `EQ7`, or a query's result. -/
theorem exec_next (i : Instr) (s t : State) (h : exec i s = .next t) :
    (∃ u, Effect s u ∧ (t = u.setStatus statusOk ∨ t = u.nextDraws.setStatus statusOk)) ∨
      t = s.setStatus statusInvalidArgument ∨ ∃ a, t = (s.setResult a).setStatus statusOk := by
  cases i with
  | pshift pf =>
    cases h
    exact .inl ⟨_, (pshiftSample_body pf).loop s s.cfgN le_rfl, .inr rfl⟩
  | bass db =>
    cases h
    exact .inl ⟨_, (bassSample_body _).loop s s.cfgN le_rfl, .inr rfl⟩
  | eq7 gains =>
    by_cases hg : gains.length = 7
    · rw [show exec (.eq7 gains) s = execEq7 gains s from rfl, execEq7_seven gains s hg] at h
      cases h
      exact .inl ⟨_, eq7Sample_body.loop s s.cfgN le_rfl, .inr rfl⟩
    · rw [show exec (.eq7 gains) s = execEq7 gains s from rfl, execEq7_other gains s hg] at h
      cases h
      exact .inr (.inl rfl)
  | lofi bd dsf =>
    cases h
    exact .inl ⟨_, (lofiSample_body _ dsf).loop s s.cfgN le_rfl, .inr rfl⟩
  | copy =>
    cases h
    exact .inl ⟨_, copySample_body.loop s s.cfgN le_rfl, .inl rfl⟩
  | getin => cases h; exact .inr (.inr ⟨_, rfl⟩)
  | getout => cases h; exact .inr (.inr ⟨_, rfl⟩)

/-- Updates outside what `Inv` speaks of keep it. -/
theorem inv_of_same (s t : State) (hi : s.Inv) (h1 : t.mem = s.mem) (h2 : t.status.toNat ≤ 2) (h3 : t.live = s.live)
    (h4 : t.cfgN = s.cfgN) (h5 : t.cfgSR = s.cfgSR) (h6 : t.inBase = s.inBase) (h7 : t.outBase = s.outBase) : t.Inv := by
  obtain ⟨hw, -, ha⟩ := hi
  unfold State.Inv State.Placed State.Confined at *
  rw [h1, h3, h4, h5, h6, h7]
  exact ⟨hw, h2, ha⟩

/-- A command keeps the invariant. -/
theorem exec_inv (i : Instr) (s t : State) (hi : s.Inv) (h : exec i s = .next t) : t.Inv := by
  rcases exec_next i s t h with ⟨u, hu, rfl | rfl⟩ | rfl | ⟨a, rfl⟩
  · exact inv_of_same u _ (hu.inv hi) rfl (by rw [State.setStatus_status]; decide) rfl rfl rfl rfl rfl
  · exact inv_of_same u _ (hu.inv hi) rfl (by rw [State.setStatus_status]; decide) rfl rfl rfl rfl rfl
  · exact inv_of_same s _ hi rfl (by rw [State.setStatus_status]; decide) rfl rfl rfl rfl rfl
  · exact inv_of_same s _ hi rfl (by rw [State.setStatus_status]; decide) rfl rfl rfl rfl rfl

/-! ### Commands that write output cells alone -/

/-- A loop body that writes one output cell and nothing else. -/
theorem forSamples_writeOut_regs (v : Nat → State → F32) (n : Nat) (s : State) :
    forSamples (fun i t => t.writeOut i (v i t)) n s = s.setMem (forSamples (fun i t => t.writeOut i (v i t)) n s).mem := by
  induction n with
  | zero => rfl
  | succ n ih => rw [forSamples_succ, ih]; rfl

end Sys2Proof.Machine
end

