-- ==== Sys2Proof/Laws/Decode.lean ====
section
/-! SUPPORT. What the decoder and the encoder can do, said once. -/

namespace Sys2Proof

/-- The fields of a header written with an operand count that fits. -/
theorem header_fields (n op : Nat) (hn : n ≤ argcMax) (hop : op < 256) :
    headerRsvd (header n op) = 0 ∧ headerArgc (header n op) = n ∧ headerOp (header n op) = op := by
  simp only [headerRsvd, headerArgc, headerOp, header, Word.field, BitVec.toNat_ofNat, argcMax] at *
  omega

/-- A word is a header with reserved bits clear exactly when it is the header its own fields make. -/
theorem header_of_fields (h : Word) (hr : headerRsvd h = 0) : header (headerArgc h) (headerOp h) = h := by
  apply BitVec.eq_of_toNat_eq
  have hlt := h.isLt
  simp only [headerRsvd, headerArgc, headerOp, header, Word.field, BitVec.toNat_ofNat] at *
  omega

theorem headerArgc_le (h : Word) : headerArgc h ≤ argcMax := by
  simp only [headerArgc, Word.field, argcMax]; omega

/-- What the opcode map makes of a command's own opcode and operands, and of nothing else (spec/30_encoding.md R104). -/
theorem decodeOp_ok (op : Nat) (args : List Word) (i : Instr) :
    decodeOp op args = .ok i ↔ opcodeOf i = op ∧ operandsOf i = args := by
  constructor
  · intro h
    unfold decodeOp at h
    split at h <;> first | (cases h; exact ⟨rfl, rfl⟩) | cases h
  · rintro ⟨rfl, rfl⟩
    cases i <;> rfl

/-- Opcodes fit their field. -/
theorem opcodeOf_lt (i : Instr) : opcodeOf i < 256 := by
  cases i <;> simp only [opcodeOf] <;> omega

/-- A command is well formed exactly when its operand count fits the header. -/
theorem wellFormed_iff (i : Instr) : WellFormed i = true ↔ (operandsOf i).length ≤ argcMax := by
  cases i <;> simp only [WellFormed, operandsOf, decide_eq_true_iff] <;> simp [argcMax]

/-- The packet of a well-formed command starts with a lawful header that announces exactly the words that follow. -/
theorem encode_header (i : Instr) (h : WellFormed i = true) :
    headerRsvd (header (operandsOf i).length (opcodeOf i)) = 0 ∧
      headerArgc (header (operandsOf i).length (opcodeOf i)) = (operandsOf i).length ∧
      headerOp (header (operandsOf i).length (opcodeOf i)) = opcodeOf i :=
  header_fields _ _ ((wellFormed_iff i).mp h) (opcodeOf_lt i)

/-- What the decoder answers on a header followed by at least `argc` words. -/
theorem decode_cons (h : Word) (tail : List Word) (hlen : headerArgc h ≤ tail.length) :
    decode (h :: tail) =
      if headerRsvd h ≠ 0 then .illegal .reservedBits h (tail.drop (headerArgc h))
      else match decodeOp (headerOp h) (tail.take (headerArgc h)) with
        | .ok i => .command i (tail.drop (headerArgc h))
        | .error why => .illegal why h (tail.drop (headerArgc h)) := by
  have : ¬ tail.length < headerArgc h := by omega
  exact if_neg this

/-- A decoded command comes from a header with reserved bits clear, its opcode and its operands. -/
theorem decode_command (ws : List Word) (i : Instr) (rest : List Word) :
    decode ws = .command i rest ↔
      ∃ h tail, ws = h :: tail ∧ headerArgc h ≤ tail.length ∧ headerRsvd h = 0 ∧ headerOp h = opcodeOf i ∧
        operandsOf i = tail.take (headerArgc h) ∧ rest = tail.drop (headerArgc h) := by
  constructor
  · intro hd
    unfold decode at hd
    split at hd
    · cases hd
    · next h tail =>
      split at hd
      · cases hd
      · next hlen =>
        split at hd
        · cases hd
        · next hr =>
          split at hd
          · next j hj =>
            cases hd
            obtain ⟨ho, ha⟩ := (decodeOp_ok _ _ _).mp hj
            exact ⟨h, tail, rfl, by omega, by simpa using hr, ho.symm, ha, rfl⟩
          · cases hd
  · rintro ⟨h, tail, rfl, hlen, hr, ho, ha, rfl⟩
    rw [decode_cons h tail hlen, if_neg (by simpa using hr), (decodeOp_ok _ _ _).mpr ⟨ho.symm, ha⟩]

end Sys2Proof
end

