-- ==== Sys2Proof/Laws/Float.lean ====
section
/-! SUPPORT. What the binary32 helpers can do, said once: packing, the order of magnitudes, exactness of the
rounding on representable values, and its bounds. -/

namespace Sys2Proof.Machine

/-! ### Patterns -/

theorem F32.mag_lt (a : F32) : F32.mag a < 2147483648 := Nat.mod_lt _ (by omega)

theorem F32.neg_iff (a : F32) : F32.neg a = true ↔ 2147483648 ≤ a.toNat := by
  simp [F32.neg, BitVec.msb_eq_decide]

theorem F32.toNat_eq (a : F32) : a.toNat = if F32.neg a then 2147483648 + F32.mag a else F32.mag a := by
  have h := a.isLt
  by_cases hn : F32.neg a = true
  · have := (F32.neg_iff a).mp hn
    simp only [hn, if_true, F32.mag]; omega
  · have := (F32.neg_iff a).not.mp hn
    simp only [hn, Bool.false_eq_true, if_false, F32.mag]; omega

theorem packF32_toNat (b : Bool) (m : Nat) (hm : m < 2147483648) :
    (packF32 b m).toNat = if b then 2147483648 + m else m := by
  cases b <;> simp [packF32, BitVec.toNat_ofNat] <;> omega

theorem packF32_mag (b : Bool) (m : Nat) (hm : m < 2147483648) : F32.mag (packF32 b m) = m := by
  rw [F32.mag, packF32_toNat b m hm]; cases b <;> simp <;> omega

theorem packF32_neg (b : Bool) (m : Nat) (hm : m < 2147483648) : F32.neg (packF32 b m) = b := by
  rw [Bool.eq_iff_iff, F32.neg_iff, packF32_toNat b m hm]
  cases b <;> simp
  omega

/-- A pattern is its sign and its magnitude. -/
theorem packF32_self (a : F32) : packF32 (F32.neg a) (F32.mag a) = a := by
  apply BitVec.eq_of_toNat_eq
  rw [packF32_toNat _ _ (F32.mag_lt a)]
  exact (F32.toNat_eq a).symm

theorem F32.ext_sign_mag (a b : F32) (hn : F32.neg a = F32.neg b) (hm : F32.mag a = F32.mag b) : a = b := by
  rw [← packF32_self a, ← packF32_self b, hn, hm]

theorem fneg_neg (a : F32) : F32.neg (fneg a) = !F32.neg a := by
  have : (0x80000000#32).msb = true := by decide
  simp only [F32.neg, fneg, BitVec.msb_xor, this, Bool.xor_true]

theorem fneg_mag (a : F32) : F32.mag (fneg a) = F32.mag a := by
  have h : (2147483648 : Nat) = 2 ^ 31 := by norm_num
  simp only [F32.mag, fneg, BitVec.toNat_xor, h, Nat.xor_mod_two_pow]
  norm_num

/-- The free NaN is a NaN. -/
theorem freeNaN_isNaN (d : Draw) : F32.isNaN (freeNaN d) = true := by
  have h : (2147483648 : Nat) = 2 ^ 31 := by norm_num
  have hle : 0x7FC00000 ≤ F32.mag (freeNaN d) := by
    simp only [F32.mag, freeNaN, BitVec.toNat_or, h, Nat.or_mod_two_pow]
    refine le_trans ?_ Nat.right_le_or
    norm_num
  exact decide_eq_true (lt_of_lt_of_le (by decide) hle)

/-- Exponent all ones and fraction bit 22 set: a quiet NaN. -/
theorem freeNaN_quiet (d : Draw) : freeNaN d &&& 0x7FC00000#32 = 0x7FC00000#32 := by
  unfold freeNaN
  generalize Config.nanBits d &&& 0x803FFFFF#32 = x
  ext i hi
  simp only [BitVec.getElem_or, BitVec.getElem_and]
  cases (0x7FC00000#32)[i] <;> simp

/-! ### The value of a magnitude pattern -/

theorem unitsOfMag_sub (m : Nat) (h : m < 8388608) : unitsOfMag m = m := by rw [unitsOfMag, if_pos h]

theorem unitsOfMag_norm (e f : Nat) (hf : f < 8388608) : unitsOfMag ((e + 1) * 8388608 + f) = (8388608 + f) * 2 ^ e := by
  rw [unitsOfMag, if_neg (by omega)]
  have h1 : ((e + 1) * 8388608 + f) % 8388608 = f := by omega
  have h2 : ((e + 1) * 8388608 + f) / 8388608 = e + 1 := by omega
  rw [h1, h2, Nat.add_sub_cancel]

/-- Every magnitude pattern is subnormal or has an exponent and a fraction. -/
theorem mag_cases (m : Nat) : m < 8388608 ∨ ∃ e f, f < 8388608 ∧ m = (e + 1) * 8388608 + f := by
  rcases Nat.lt_or_ge m 8388608 with h | h
  · exact .inl h
  · refine .inr ⟨m / 8388608 - 1, m % 8388608, Nat.mod_lt _ (by omega), ?_⟩
    omega

theorem unitsOfMag_succ_lt (m : Nat) : unitsOfMag m < unitsOfMag (m + 1) := by
  rcases mag_cases m with h | ⟨e, f, hf, rfl⟩
  · rw [unitsOfMag_sub m h]
    rcases Nat.lt_or_ge (m + 1) 8388608 with h1 | h1
    · rw [unitsOfMag_sub _ h1]; omega
    · have : m + 1 = (0 + 1) * 8388608 + 0 := by omega
      rw [this, unitsOfMag_norm 0 0 (by omega)]; omega
  · rw [unitsOfMag_norm e f hf]
    have hp : 0 < 2 ^ e := by positivity
    rcases Nat.lt_or_ge (f + 1) 8388608 with h1 | h1
    · have : (e + 1) * 8388608 + f + 1 = (e + 1) * 8388608 + (f + 1) := by omega
      rw [this, unitsOfMag_norm e (f + 1) h1]
      exact Nat.mul_lt_mul_of_pos_right (by omega) hp
    · have : (e + 1) * 8388608 + f + 1 = (e + 1 + 1) * 8388608 + 0 := by omega
      rw [this, unitsOfMag_norm (e + 1) 0 (by omega), pow_succ]
      have : 8388608 + f < 16777216 := by omega
      calc (8388608 + f) * 2 ^ e < 16777216 * 2 ^ e := Nat.mul_lt_mul_of_pos_right this hp
        _ = (8388608 + 0) * (2 ^ e * 2) := by ring

/-- A greater pattern is a greater magnitude. -/
theorem unitsOfMag_strictMono : StrictMono unitsOfMag := strictMono_nat_of_lt_succ unitsOfMag_succ_lt

theorem unitsOfMag_lt_iff (m n : Nat) : unitsOfMag m < unitsOfMag n ↔ m < n := unitsOfMag_strictMono.lt_iff_lt

theorem unitsOfMag_le_iff (m n : Nat) : unitsOfMag m ≤ unitsOfMag n ↔ m ≤ n := unitsOfMag_strictMono.le_iff_le

theorem unitsOfMag_inj (m n : Nat) : unitsOfMag m = unitsOfMag n ↔ m = n := unitsOfMag_strictMono.injective.eq_iff

theorem unitsOfMag_zero : unitsOfMag 0 = 0 := rfl

theorem units_eq_zero (a : F32) : F32.units a = 0 ↔ F32.isZero a = true := by
  rw [F32.units, F32.isZero, decide_eq_true_eq, ← unitsOfMag_inj (F32.mag a) 0, unitsOfMag_zero]

/-! ### Rounding -/

theorem quotNearestEven_exact (k d : Nat) (hd : 0 < d) : quotNearestEven (k * d) d = k := by
  unfold quotNearestEven
  rw [Nat.mul_mod_left, Nat.mul_div_cancel k hd, if_pos (by omega)]

theorem roundMagWith_le (rnd : Nat → Nat → Nat) (n d : Nat) : roundMagWith rnd n d ≤ infMag := Nat.min_le_left _ _

theorem roundMag_le (n d : Nat) : roundMag n d ≤ infMag := roundMagWith_le _ n d

theorem roundMag_lt (n d : Nat) : roundMag n d < 2147483648 := lt_of_le_of_lt (roundMag_le n d) (by decide)

/-- Rounding is exact on a representable value. -/
theorem roundMag_exact (m d : Nat) (hm : m ≤ infMag) (hd : 0 < d) : roundMag (unitsOfMag m * d) d = m := by
  unfold roundMag roundMagWith ulpShift
  rw [Nat.mul_div_cancel _ hd]
  rcases mag_cases m with h | ⟨e, f, hf, rfl⟩
  · rw [unitsOfMag_sub m h]
    have hlog : Nat.log2 m - 23 = 0 := by
      rcases Nat.eq_zero_or_pos m with rfl | hp
      · rfl
      · have : Nat.log2 m < 23 := (Nat.log2_lt (by omega)).mpr (by omega)
        omega
    rw [hlog, pow_zero, mul_one, quotNearestEven_exact _ _ hd]
    rw [Nat.zero_mul, Nat.zero_add]; exact Nat.min_eq_right hm
  · rw [unitsOfMag_norm e f hf]
    have hp : 0 < 2 ^ e := by positivity
    have hlog : Nat.log2 ((8388608 + f) * 2 ^ e) = 23 + e := by
      rw [Nat.log2_eq_iff (by positivity), pow_succ, pow_add]
      norm_num only [Nat.reducePow]
      constructor
      · exact Nat.mul_le_mul_right _ (by omega)
      · have : (8388608 + f) * 2 ^ e < 16777216 * 2 ^ e := Nat.mul_lt_mul_of_pos_right (by omega) hp
        omega
    rw [hlog, Nat.add_sub_cancel_left]
    have : (8388608 + f) * 2 ^ e * d = (8388608 + f) * (d * 2 ^ e) := by ring
    rw [this, quotNearestEven_exact _ _ (by positivity)]
    have : e * 8388608 + (8388608 + f) = (e + 1) * 8388608 + f := by ring
    rw [this]; exact Nat.min_eq_right hm

/-- Rounding a value of units that is representable, over 1. -/
theorem roundMag_units (m : Nat) (hm : m ≤ infMag) : roundMag (unitsOfMag m) 1 = m := by
  simpa using roundMag_exact m 1 hm Nat.one_pos

theorem roundMag_zero (d : Nat) (hd : 0 < d) : roundMag 0 d = 0 := by
  simpa [unitsOfMag_zero] using roundMag_exact 0 d (by decide) hd

/-! ### The operations on finite operands: one rounding of the exact result -/

/-- A finite value is neither NaN nor an infinity. -/
theorem F32.isFinite_iff (a : F32) : F32.isFinite a = true ↔ F32.isNaN a = false ∧ F32.isInf a = false := by
  simp only [F32.isFinite, F32.isNaN, F32.isInf, decide_eq_true_eq, decide_eq_false_iff_not]; omega

theorem fneg_units (a : F32) : F32.units (fneg a) = F32.units a := by rw [F32.units, F32.units, fneg_mag]

theorem fneg_toUnits (a : F32) : F32.toUnits (fneg a) = -F32.toUnits a := by
  rw [F32.toUnits, F32.toUnits, fneg_units, fneg_neg]; cases F32.neg a <;> simp

theorem fneg_isFinite (a : F32) : F32.isFinite (fneg a) = F32.isFinite a := by rw [F32.isFinite, F32.isFinite, fneg_mag]

theorem fadd_finite (d : Draw) (a b : F32) (ha : F32.isFinite a = true) (hb : F32.isFinite b = true) :
    fadd d a b = roundUnits (F32.neg a && F32.neg b) (F32.toUnits a + F32.toUnits b) := by
  rw [F32.isFinite_iff] at ha hb
  simp [fadd, ha, hb]

theorem fsub_finite (d : Draw) (a b : F32) (ha : F32.isFinite a = true) (hb : F32.isFinite b = true) :
    fsub d a b = roundUnits (F32.neg a && !F32.neg b) (F32.toUnits a - F32.toUnits b) := by
  rw [fsub, fadd_finite d a _ ha (by rw [fneg_isFinite]; exact hb), fneg_neg, fneg_toUnits, Int.sub_eq_add_neg]

theorem fmul_finite (d : Draw) (a b : F32) (ha : F32.isFinite a = true) (hb : F32.isFinite b = true) :
    fmul d a b = packF32 (F32.neg a != F32.neg b) (roundMag (F32.units a * F32.units b) (2 ^ 149)) := by
  rw [F32.isFinite_iff] at ha hb
  simp [fmul, ha, hb]

theorem fdiv_finite (d : Draw) (a b : F32) (ha : F32.isFinite a = true) (hb : F32.isFinite b = true)
    (hz : F32.isZero b = false) :
    fdiv d a b = packF32 (F32.neg a != F32.neg b) (roundMag (F32.units a * 2 ^ 149) (F32.units b)) := by
  rw [F32.isFinite_iff] at ha hb
  simp [fdiv, ha, hb, hz]

/-! ### The free choice of a range -/

/-- The pattern a range picks is never above its upper end, nor below both ends. -/
theorem MagRange.pick_le (r : MagRange) (c : BitVec 32) : r.pick c ≤ r.hi := by
  unfold MagRange.pick
  have h1 : Nat.min r.lo r.hi ≤ r.hi := Nat.min_le_right _ _
  have h2 : c.toNat % (r.hi - Nat.min r.lo r.hi + 1) < r.hi - Nat.min r.lo r.hi + 1 := Nat.mod_lt _ (by omega)
  omega

theorem MagRange.le_pick (r : MagRange) (c : BitVec 32) (h : r.lo ≤ r.hi) : r.lo ≤ r.pick c := by
  unfold MagRange.pick
  have : Nat.min r.lo r.hi = r.lo := Nat.min_eq_left h
  omega

theorem nearRange_hi_le (cap : Nat) (low high : Ratio) : (nearRange cap low high).hi ≤ cap := Nat.min_le_left _ _

end Sys2Proof.Machine
end

