-- ==== Sys2Proof/Laws/PerInstr.lean ====
section
/-! SUPPORT. Statements made per command, one lemma per constructor of `Instr`. -/

namespace Sys2Proof.Laws.PacketShape

/-- The packet of a well-formed command starts with a lawful header that announces exactly the words that follow
(spec/30_encoding.md R101, R102). -/
def Statement (i : Instr) : Prop :=
  WellFormed i = true → ∃ h tail, encode i = h :: tail ∧ headerRsvd h = 0 ∧ headerArgc h = tail.length

theorem pshift (pitchFactor : F32) : Statement (.pshift pitchFactor) := fun h =>
  ⟨_, _, rfl, (encode_header _ h).1, (encode_header _ h).2.1⟩

theorem bass (boostDb : F32) : Statement (.bass boostDb) := fun h =>
  ⟨_, _, rfl, (encode_header _ h).1, (encode_header _ h).2.1⟩

theorem eq7 (gains : List F32) : Statement (.eq7 gains) := fun h =>
  ⟨_, _, rfl, (encode_header _ h).1, (encode_header _ h).2.1⟩

theorem lofi (bitDepth downsampleFactor : F32) : Statement (.lofi bitDepth downsampleFactor) := fun h =>
  ⟨_, _, rfl, (encode_header _ h).1, (encode_header _ h).2.1⟩

theorem copy : Statement .copy := fun h => ⟨_, _, rfl, (encode_header _ h).1, (encode_header _ h).2.1⟩

theorem getin : Statement .getin := fun h => ⟨_, _, rfl, (encode_header _ h).1, (encode_header _ h).2.1⟩

theorem getout : Statement .getout := fun h => ⟨_, _, rfl, (encode_header _ h).1, (encode_header _ h).2.1⟩

end Sys2Proof.Laws.PacketShape
end

