-- ==== Sys2Proof/Laws/Step.lean ====
section
/-! SUPPORT. Everything one step can do, said once. -/

namespace Sys2Proof.Machine

/-- What a move of the host that is not `RESET` leads to, on an engine that is `Alive`. `u` is the state with the move
taken from the inbox. -/
inductive AliveMove (u : State) : HostMove → State → Prop where
  | destroy : AliveMove u .destroy (u.setLive .dead)
  | command (ws : List Word) (i : Instr) (rest : List Word) (t : State) (hd : decode ws = .command i rest)
      (he : exec i (u.pushWords rest) = .next t) : AliveMove u (.packet ws) t
  | illegal (ws : List Word) (why : IllegalReason) (h : Word) (rest : List Word) (hd : decode ws = .illegal why h rest) :
      AliveMove u (.packet ws) ((u.pushWords rest).setStatus statusIllegalCommand)
  | write (addr v : Word) (hc : u.isCellAddr addr.toNat = true) :
      AliveMove u (.write addr 4 v) (u.writeCell addr.toNat v)
  | read (addr : Word) (hc : u.isCellAddr addr.toNat = true) :
      AliveMove u (.read addr 4) (u.observe (.cell addr (u.readCell addr.toNat)))
  | forward (src dst : Word) (hs : u.isCellAddr src.toNat = true) (hd : u.isCellAddr dst.toNat = true) :
      AliveMove u (.forward src dst)
        ((u.observe (.cell src (u.readCell src.toNat))).writeCell dst.toNat (u.readCell src.toNat))
  | readStatus : AliveMove u .readStatus (u.observe (.status u.status))
  | readResult : AliveMove u .readResult (u.observe (.result u.result))

theorem accessOk_iff (s : State) (addr : Word) (width : Nat) :
    s.accessOk addr width = true ↔ width = 4 ∧ s.isCellAddr addr.toNat = true := by
  rw [State.accessOk, Bool.and_eq_true, decide_eq_true_iff, cellBytes]

/-- Everything a step to a next state can do: nothing to do, a successful construction, or a move of the host on an
engine that is `Alive`. -/
theorem step_next (s t : State) (h : step s = .next t) :
    (s.inbox = [] ∧ t = s) ∨
      ∃ m moves, s.inbox = m :: moves ∧
        ((∃ n r a b, m = .reset n r (some (a, b)) ∧ s.live = .unborn ∧ resetArgsOk n r = true ∧
            placementOk n a b = true ∧ t = constructed n r a b (s.setInbox moves)) ∨
          (s.live = .alive ∧ AliveMove (s.setInbox moves) m t)) := by
  unfold step at h
  split at h
  · next hn => cases h; exact .inl ⟨hn, rfl⟩
  · next m moves hm =>
    refine .inr ⟨m, moves, hm, ?_⟩
    cases m with
    | reset n r place =>
      simp only [hostMove, hostReset] at h
      split at h
      · cases h
      · next hl =>
        split at h
        · cases h
        · next hr =>
          split at h
          · cases h
          · next a b =>
            split at h
            · next hp => cases h; exact .inl ⟨n, r, a, b, rfl, by simpa using hl, by simpa using hr, hp, rfl⟩
            · cases h
    | destroy =>
      simp only [hostMove, hostDestroy] at h
      split at h
      · next hl => cases h; exact .inr ⟨hl, .destroy⟩
      · cases h
    | packet ws =>
      simp only [hostMove, deliver] at h
      split at h
      · next hl =>
        split at h
        · next i rest hd => exact .inr ⟨hl, .command ws i rest t hd h⟩
        · next why hw rest hd => cases h; exact .inr ⟨hl, .illegal ws why hw rest hd⟩
        · cases h
      · cases h
    | write addr width v =>
      simp only [hostMove, hostWrite] at h
      split at h
      · next hl =>
        split at h
        · next hc =>
          obtain ⟨rfl, hc⟩ := (accessOk_iff _ _ _).mp hc
          cases h; exact .inr ⟨hl, .write addr v hc⟩
        · cases h
      · cases h
    | read addr width =>
      simp only [hostMove, hostRead] at h
      split at h
      · next hl =>
        split at h
        · next hc =>
          obtain ⟨rfl, hc⟩ := (accessOk_iff _ _ _).mp hc
          cases h; exact .inr ⟨hl, .read addr hc⟩
        · cases h
      · cases h
    | forward src dst =>
      simp only [hostMove, hostForward] at h
      split at h
      · next hl =>
        split at h
        · next hc =>
          rw [Bool.and_eq_true, accessOk_iff, accessOk_iff] at hc
          cases h; exact .inr ⟨hl, .forward src dst hc.1.2 hc.2.2⟩
        · cases h
      · cases h
    | readStatus =>
      simp only [hostMove, hostReadStatus] at h
      split at h
      · next hl => cases h; exact .inr ⟨hl, .readStatus⟩
      · cases h
    | readResult =>
      simp only [hostMove, hostReadResult] at h
      split at h
      · next hl => cases h; exact .inr ⟨hl, .readResult⟩
      · cases h

/-- The words after a packet change the inbox alone. -/
theorem pushWords_eq (s : State) (rest : List Word) :
    s.pushWords rest = s.setInbox (if rest.isEmpty then s.inbox else .packet rest :: s.inbox) := by
  unfold State.pushWords; split <;> rfl

theorem isCellAddr_iff (s : State) (a : Nat) :
    s.isCellAddr a = true ↔ ∃ i, i < s.cfgN ∧ (a = s.inAddr i ∨ a = s.outAddr i) := by
  simp only [State.isCellAddr, inRegion, State.inAddr, State.outAddr, cellAddr, Bool.or_eq_true, Bool.and_eq_true,
    decide_eq_true_eq]
  constructor
  · rintro (⟨⟨h1, h2⟩, h3⟩ | ⟨⟨h1, h2⟩, h3⟩)
    · exact ⟨(a - s.inBase.toNat) / 4, by omega, .inl (by omega)⟩
    · exact ⟨(a - s.outBase.toNat) / 4, by omega, .inr (by omega)⟩
  · rintro ⟨i, hi, rfl | rfl⟩
    · left; omega
    · right; omega

/-- A cell write of the host keeps the invariant. -/
theorem writeCell_inv (s : State) (a : Nat) (v : Word) (hi : s.Inv) (hl : s.live = .alive) (hc : s.isCellAddr a = true) :
    (s.writeCell a v).Inv := by
  obtain ⟨hw, hs, ha⟩ := hi
  obtain ⟨hr, hp, hcf⟩ := ha (by rw [hl]; decide)
  refine ⟨wf_writeWord _ _ _ hw, hs, fun _ => ⟨hr, hp, ?_⟩⟩
  obtain ⟨i, hi, hai⟩ := (isCellAddr_iff s a).mp hc
  refine all_writeWord (fun x => inRegion s.inBase s.cfgN x || inRegion s.outBase s.cfgN x) _ _ _ hcf fun k hk => ?_
  rw [Bool.or_eq_true, inRegion_iff, inRegion_iff]
  simp only [State.inAddr, State.outAddr, cellAddr] at hai
  omega

end Sys2Proof.Machine
end

