-- ==== Sys2Proof/Tests/Slice0.lean ====
section
/-! SUPPORT. Tests with results from spec/95_test_vectors.md and from hand calculation by the rules, and for every
obligation with hypotheses a witness: a concrete state and operands that meet them together. -/

open Sys2Proof Sys2Proof.Machine

namespace Sys2Proof.Tests

/-! ### Helpers -/

/-- The example bases of the tests. -/
def inB : Word := 0x00010000
def outB : Word := 0x00020000

/-- Memory with a region's cells filled from cell `i` on. -/
def fillCells (base : Word) : Nat → List F32 → Memory → Memory
  | _, [], m => m
  | i, v :: vs, m => fillCells base (i + 1) vs (Memory.writeWord m (cellAddr base i) v)

/-- An engine just reset, with the given coefficient table and input cells. -/
def engine (coef : Vector Coef 7) (xs : List F32) : State :=
  (State.construct xs.length 0x472C4400 inB outB coef).setMem (fillCells inB 0 xs [])

/-- The test tables of spec/95_test_vectors.md section 1. -/
def ident : Vector Coef 7 := Vector.replicate 7 ⟨0x3F800000, 0, 0, 0, 0⟩
def half : Vector Coef 7 := Vector.replicate 7 ⟨0x3F000000, 0, 0, 0, 0⟩
def mix : Vector Coef 7 :=
  #v[⟨0x3F800000, 0x3F000000, 0, 0, 0⟩, ⟨0x3F800000, 0, 0, 0xBF000000, 0⟩, ⟨0x3F000000, 0, 0, 0, 0⟩,
    ⟨0x3F800000, 0, 0x3E800000, 0, 0⟩, ⟨0x3F800000, 0, 0, 0, 0x3E800000⟩, ⟨0x40000000, 0, 0, 0, 0⟩,
    ⟨0x3F800000, 0xBF800000, 0, 0, 0⟩]

/-- 1.0, 2.0, 3.0, 4.0. -/
def oneToFour : List F32 := [0x3F800000, 0x40000000, 0x40400000, 0x40800000]

/-- An engine with one cell, and with one move of the host waiting. -/
def one : State := engine ident [0x3F800000]
def waiting (m : HostMove) : State := one.setInbox [m]

/-- An engine before any reset, with one move waiting. -/
def before (m : HostMove) : State := State.unborn.setInbox [m]

/-- Whether an outcome is a next state of which `f` holds. -/
def answers (o : Host.Outcome State Fault Refusal) (f : State → Bool) : Bool :=
  match o with
  | .next s => f s
  | .fault _ => false
  | .refused _ => false

/-- Whether an outcome is that refusal. -/
def refuses (o : Host.Outcome State Fault Refusal) (r : Refusal) : Bool :=
  match o with
  | .next _ => false
  | .fault _ => false
  | .refused q => decide (q = r)

theorem next_of_answers (o : Host.Outcome State Fault Refusal) (f : State → Bool) (h : answers o f = true) :
    ∃ t, o = .next t ∧ f t = true := by
  cases o with
  | next t => exact ⟨t, rfl, h⟩
  | fault r => cases h
  | refused r => cases h

/-! ### Well-formedness and encodings -/

/-- spec/30_encoding.md R105: 255 gains can be encoded, 256 cannot. -/
theorem test_wellFormed_bounds :
    WellFormed (.eq7 (List.replicate 255 0)) = true ∧ WellFormed (.eq7 (List.replicate 256 0)) = false := by
  decide +kernel

/-- Vectors V-N1 to V-N14: the words written out from R101 and R104. -/
theorem test_decode_pshift : decode [0x00000101, 0x3F000000] = .command (.pshift 0x3F000000) [] := by decide
theorem test_decode_bass : decode [0x00000102, 0x41A00000] = .command (.bass 0x41A00000) [] := by decide
theorem test_decode_eq7 :
    decode (0x00000703 :: List.replicate 7 0x3F800000) = .command (.eq7 (List.replicate 7 0x3F800000)) [] := by decide
theorem test_decode_eq7_none : decode [0x00000003] = .command (.eq7 []) [] := by decide
theorem test_decode_eq7_255 :
    decode (0x0000FF03 :: List.replicate 255 0) = .command (.eq7 (List.replicate 255 0)) [] := by decide +kernel
theorem test_decode_lofi :
    decode [0x00000204, 0x3F800000, 0x49742400] = .command (.lofi 0x3F800000 0x49742400) [] := by decide
theorem test_decode_copy : decode [0x00000005] = .command .copy [] := by decide
theorem test_decode_getin : decode [0x00000006] = .command .getin [] := by decide
theorem test_decode_getout : decode [0x00000007] = .command .getout [] := by decide

/-- Vectors V-N15 to V-N22, each with a word behind the packet, which the decoder leaves. -/
theorem test_decode_illegal :
    decode [0x00000105, 0x3F800000, 5] = .illegal .wrongCount 0x00000105 [5] ∧
    decode [0x00010005, 5] = .illegal .reservedBits 0x00010005 [5] ∧
    decode [0x00000008, 5] = .illegal .reservedOpcode 0x00000008 [5] ∧
    decode [0x00000000, 5] = .illegal .reservedOpcode 0x00000000 [5] ∧
    decode [0x00000001, 5] = .illegal .wrongCount 0x00000001 [5] ∧
    decode [0x00000304, 0, 0, 0, 5] = .illegal .wrongCount 0x00000304 [5] ∧
    decode [0x80000703, 0, 0, 0, 0, 0, 0, 0, 5] = .illegal .reservedBits 0x80000703 [5] ∧
    decode [0x000002FF, 0, 0, 5] = .illegal .reservedOpcode 0x000002FF [5] := by decide

/-- R101, U27: words that end before the packet does are no packet. -/
theorem test_decode_truncated : decode [] = .truncated ∧ decode [0x00000204, 0x3F800000] = .truncated := by decide

/-- The rows of spec/opcode_table.json, by their match words, operand words zero. -/
theorem test_table_words :
    decodeTableWord 32 0x00000101 = some (.pshift 0) ∧ decodeTableWord 32 0x00000102 = some (.bass 0) ∧
    decodeTableWord 32 0x00000003 = some (.eq7 []) ∧ decodeTableWord 32 0x00000703 = some (.eq7 (List.replicate 7 0)) ∧
    decodeTableWord 32 0x00000204 = some (.lofi 0 0) ∧ decodeTableWord 32 0x00000005 = some .copy ∧
    decodeTableWord 32 0x00000006 = some .getin ∧ decodeTableWord 32 0x00000007 = some .getout ∧
    decodeTableWord 32 0x00000000 = none ∧ decodeTableWord 96 0x40000000_3F800000_00000204 =
      some (.lofi 0x3F800000 0x40000000) := by decide

/-- Every row runs as the first step after reset. -/
theorem test_rows_run_after_reset :
    ([0x00000101, 0x00000102, 0x00000003, 0x00000703, 0x00000204, 0x00000005, 0x00000006, 0x00000007].all fun w =>
      answers (step (State.reset.withFetchWord 32 w)) fun _ => true) = true := by decide

/-! ### Commands -/

/-- Vector V-P10: the sums are rounded, and the correction fires at the last sample. -/
theorem test_pshift_rounds :
    answers (exec (.pshift 0x3E99999A) (engine ident oneToFour)) (fun t =>
      decide (t.outCells = [0x3E99999A, 0x3F99999A, 0x402CCCCD, 0x40800000]) && decide (t.phase = 0x3E4CCCD0) &&
        decide (t.prev = 0x40800000) && decide (t.status = 0)) = true := by decide +kernel

/-- Vector V-P6: one subtraction a sample, so `PHASE` can stay at or above 1.0. -/
theorem test_pshift_subtracts_once :
    answers (exec (.pshift 0x3FC00000) (engine ident oneToFour)) (fun t =>
      decide (t.outCells = oneToFour) && decide (t.phase = 0x40000000) && decide (t.prev = 0x40800000)) = true := by
  decide +kernel

/-- Vector V-A1 where it is exact: +0.0, 100.0 and -0.0 at a boost factor of 1.0. -/
theorem test_bass_saturates :
    answers (exec (.bass 0) (engine ident [0, 0x42C80000, 0x80000000])) (fun t =>
      decide (t.outCells = [0, 0x3F800000, 0x80000000])) = true := by decide +kernel

/-- Vector V-A5 where it is a number: the boost factor is +0.0, and the product keeps the sign. -/
theorem test_bass_minus_infinity :
    answers (exec (.bass 0xFF800000) (engine ident [0x3F000000, 0xBF000000])) (fun t =>
      decide (t.outCells = [0, 0x80000000])) = true := by decide

/-- Vector V-E5: the order of the cascade, and the history of stages 3 and 6 after it. -/
theorem test_eq7_cascade :
    answers (exec (.eq7 (List.replicate 7 0)) (engine mix [0x3F800000, 0, 0, 0])) (fun t =>
      decide (t.outCells = [0x3F800000, 0, 0xBF000000, 0xBE800000]) &&
        decide ((t.bq[3].x1, t.bq[3].x2, t.bq[3].y1, t.bq[3].y2) =
          (0x3E000000#32, 0x3E800000#32, 0x3E800000#32, 0x3EC00000#32)) &&
        decide ((t.bq[6].x1, t.bq[6].x2, t.bq[6].y1, t.bq[6].y2) =
          (0x3E800000#32, 0x3F000000#32, 0xBE800000#32, 0xBF000000#32))) = true := by decide +kernel

/-- Vector V-E1: six gains raise, and the output stays 9.0. -/
theorem test_eq7_six_gains :
    answers (exec (.eq7 (List.replicate 6 0)) ((engine half [0x3F800000]).writeOut 0 0x41100000)) (fun t =>
      decide (t.outCells = [0x41100000]) && decide (t.status = 1) && decide (t.bq[0].x1 = 0)) = true := by decide +kernel

/-- Vector V-L7: the irregular hold pattern of a factor of 1.5, and ties that the product's rounding makes. -/
theorem test_lofi_holds :
    answers (exec (.lofi 0x40800000 0x3FC00000)
        (engine ident [0x3DCCCCCD, 0x3E4CCCCD, 0x3E99999A, 0x3ECCCCCD, 0x3F000000, 0x3F19999A, 0x3F333333])) (fun t =>
      decide (t.outCells =
        [0x3E088889, 0x3E088889, 0x3EAAAAAB, 0x3ECCCCCD, 0x3ECCCCCD, 0x3F19999A, 0x3F3BBBBC])) = true := by
  decide +kernel

/-- Vector V-L14: a negative number of levels. -/
theorem test_lofi_negative_levels :
    answers (exec (.lofi 0xBF800000 0x3F800000) (engine ident [0x3F800000, 0x3F666666, 0xC0400000, 0x3F000000]))
      (fun t => decide (t.outCells = [0x40000000, 0, 0xC0800000, 0])) = true := by decide +kernel

/-- Vector V-C1: a signalling NaN keeps its pattern. -/
theorem test_copy_bits :
    answers (exec .copy (engine ident [0x3F800000, 0x80000000, 0x7FA00001, 0x00000001])) (fun t =>
      decide (t.outCells = [0x3F800000, 0x80000000, 0x7FA00001, 0x00000001]) && decide (t.status = 0)) = true := by
  decide

/-- Vector V-G1: the queries, which a later command leaves in `RESULT` (V-G2). -/
theorem test_getin : answers (exec .getin one) (fun t => decide (t.result = 0x00010000) && decide (t.status = 0)) = true := by
  decide
theorem test_getout :
    answers (exec .getout one) (fun t => decide (t.result = 0x00020000) && decide (t.status = 0)) = true := by
  decide

/-- Vector V-G1: after `WRIN 0, 1.0` the bytes are 00 00 80 3F, lowest address first. -/
theorem test_wrin_bytes :
    answers (step (waiting (wrin one 0 0x3F800000))) (fun t =>
      decide ([0, 1, 2, 3].map (fun k => Memory.readByte t.mem (0x00010000 + k)) = [0x00, 0x00, 0x80, 0x3F])) = true := by
  decide

/-- Vectors V-X2, V-X6: an illegal packet sets `STATUS` to 2. -/
theorem test_illegal_status :
    answers (step (waiting (.packet [0x00000008]))) (fun t => decide (t = { one with status := 2 })) = true := by
  decide +kernel

/-! ### Arithmetic, by hand from spec/40_numerics.md -/

/-- R142: ties go away from zero, and -0.4 rounds to -0.0. -/
theorem test_round :
    (fround ⟨0, 0, 0⟩ 0x3F000000, fround ⟨0, 0, 0⟩ 0x40200000, fround ⟨0, 0, 0⟩ 0xBECCCCCD) =
      (0x3F800000#32, 0x40400000#32, 0x80000000#32) := by decide

/-- R132: 1 + 2^-24 is a tie and goes to the even pattern; 1 + 3·2^-24 goes up (0x33800000 is 2^-24). -/
theorem test_add_ties :
    (fadd ⟨0, 0, 0⟩ 0x3F800000 0x33800000, fadd ⟨0, 0, 0⟩ 0x3F800001 0x33800000) = (0x3F800000#32, 0x3F800002#32) := by
  decide

/-! ### Witnesses: what the obligations assume can be met -/

theorem witness_DecodeOfEncode :
    WellFormed (.eq7 (List.replicate 255 0x7FC00000)) = true ∧ WellFormed (.eq7 []) = true ∧
    WellFormed (.pshift 0x7FC00000) = true ∧ WellFormed (.lofi 0 0xFFFFFFFF) = true := by decide +kernel

theorem witness_EncodeOfDecode :
    decode [0x00000204, 7, 8, 9] = .command (.lofi 7 8) [9] ∧ decode [0x00000005] = .command .copy [] := by decide

/-- One packet for each way of being illegal, each fixed-count opcode with one word too many or too few. -/
theorem witness_IllegalPacketsExactly :
    (headerArgc 0x00010005 ≤ ([] : List Word).length ∧ headerRsvd 0x00010005 ≠ 0) ∧
    (headerArgc 0x00000000 ≤ ([] : List Word).length ∧ headerOp 0x00000000 = 0x00) ∧
    (headerArgc 0x00000008 ≤ ([] : List Word).length ∧ 0x08 ≤ headerOp 0x00000008) ∧
    (headerArgc 0x00000001 ≤ ([] : List Word).length ∧ headerOp 0x00000001 = 0x01 ∧ headerArgc 0x00000001 ≠ 1) ∧
    (headerArgc 0x00000202 ≤ [(0 : Word), 0].length ∧ headerOp 0x00000202 = 0x02 ∧ headerArgc 0x00000202 ≠ 1) ∧
    (headerArgc 0x00000104 ≤ [(0 : Word)].length ∧ headerOp 0x00000104 = 0x04 ∧ headerArgc 0x00000104 ≠ 2) ∧
    (headerArgc 0x00000105 ≤ [(0 : Word)].length ∧ headerOp 0x00000105 = 0x05 ∧ headerArgc 0x00000105 ≠ 0) ∧
    (headerArgc 0x00000106 ≤ [(0 : Word)].length ∧ headerOp 0x00000106 = 0x06 ∧ headerArgc 0x00000106 ≠ 0) ∧
    (headerArgc 0x00000107 ≤ [(0 : Word)].length ∧ headerOp 0x00000107 = 0x07 ∧ headerArgc 0x00000107 ≠ 0) := by decide

theorem witness_DecoderConsumesOnePacket :
    packetLength 0x00000204 ≤ [(0x00000204 : Word), 1, 2].length ∧
    packetLength 0x00000304 ≤ [(0x00000304 : Word), 1, 2, 3].length ∧
    ¬ packetLength 0x00000204 ≤ [(0x00000204 : Word), 1].length := by decide

theorem witness_HeadersSelectRows :
    headerArgc 0x00000603 ≤ (List.replicate 6 (0 : Word)).length ∧ (0x00000603#32 &&& 0xFFFF00FF#32) = 0x00000003#32 ∧
    headerArgc 0x00000204 ≤ [(0 : Word), 0].length ∧ (0x00000204#32 &&& 0xFFFFFFFF#32) = 0x00000204#32 := by decide

theorem witness_StepRunsTheDecodedCommand :
    ((waiting (.packet [0x00000101, 7, 8])).live = .alive ∧
      (waiting (.packet [0x00000101, 7, 8])).inbox = .packet [0x00000101, 7, 8] :: [] ∧
      decode [0x00000101, 7, 8] = .command (.pshift 7) [8]) ∧
    decodeTableWord 32 0x00000101 = some (.pshift 0) := ⟨⟨rfl, rfl, by decide⟩, by decide⟩

theorem witness_IllegalPacketSetsStatusOnly :
    (waiting (.packet [0x00000105, 1, 5])).live = .alive ∧
    (waiting (.packet [0x00000105, 1, 5])).inbox = .packet [0x00000105, 1, 5] :: [] ∧
    decode [0x00000105, 1, 5] = .illegal .wrongCount 0x00000105 [5] := ⟨rfl, rfl, by decide⟩

theorem witness_NothingRunsUnlessAlive :
    ((before (issue .copy)).live ≠ .alive ∧ (before (issue .copy)).inbox = issue .copy :: [] ∧
      ∀ n r place, issue .copy ≠ .reset n r place) ∧
    (((before .destroy).setLive .dead).live ≠ .alive ∧ ((before .destroy).setLive .dead).inbox = .destroy :: []) ∧
    ((waiting (.packet [])).live = .alive ∧ (waiting (.packet [])).inbox = .packet [] :: [] ∧ decode [] = .truncated) ∧
    decode [0x00000101] = .truncated :=
  ⟨⟨by decide, rfl, fun _ _ _ h => by cases h⟩, ⟨by decide, rfl⟩, ⟨rfl, rfl, rfl⟩, by decide⟩

theorem witness_IdleEngineHoldsItsState : one.inbox = [] := rfl

/-- The smallest block, and the largest at both ends of the address space. -/
theorem witness_ResetLeavesTheStatedValues :
    (before (.reset 1 1 (some (inB, outB)))).live = .unborn ∧
    (before (.reset 1 1 (some (inB, outB)))).inbox = .reset 1 1 (some (inB, outB)) :: [] ∧
    resetArgsOk 1 1 = true ∧ placementOk 1 inB outB = true ∧
    resetArgsOk 16777216 0x7F7FFFFF = true ∧ placementOk 16777216 0xFC000000 0 = true :=
  ⟨rfl, rfl, by decide, by decide, by decide, by decide⟩

/-- Each bad argument of V-X9, an engine that is not `Unborn`, and a platform with no regions or with regions that
overlap by one cell. -/
theorem witness_ResetRefusals :
    (waiting (.reset 4 0x472C4400 none)).live ≠ .unborn ∧
    ([(0, 0x472C4400), (16777217, 0x472C4400), (4, 0), (4, 0x80000000), (4, 0xBF800000), (4, 0x7F800000),
      (4, 0x7FC00000)].all fun p : Nat × F32 =>
        refuses (step (before (.reset p.1 p.2 (some (inB, outB))))) .badResetArguments) = true ∧
    ((before (.reset 2 0x472C4400 (some (0x100, 0x104)))).live = .unborn ∧
      (before (.reset 2 0x472C4400 (some (0x100, 0x104)))).inbox = .reset 2 0x472C4400 (some (0x100, 0x104)) :: [] ∧
      resetArgsOk 2 0x472C4400 = true ∧ placementOk 2 0x100 0x104 = false ∧ placementOk 2 0x100 0x108 = true) :=
  ⟨by decide, by decide, rfl, rfl, by decide, by decide, by decide⟩

theorem witness_DestroyEndsTheLife :
    (waiting .destroy).inbox = .destroy :: [] ∧ (waiting .destroy).live = .alive ∧
    (before .destroy).inbox = .destroy :: [] ∧ (before .destroy).live ≠ .alive := ⟨rfl, rfl, rfl, by decide⟩

/-- Steps that reach each of the three cases. -/
theorem witness_OnlyResetAndDestroyMoveLive :
    (∃ t, step (waiting .readStatus) = .next t ∧ decide (t.live = .alive) = true) ∧
    (∃ t, step (before (.reset 1 1 (some (inB, outB)))) = .next t ∧ decide (t.live = .alive) = true) ∧
    (∃ t, step (waiting .destroy) = .next t ∧ decide (t.live = .dead) = true) :=
  ⟨next_of_answers _ _ (by decide), next_of_answers _ _ (by decide),
    next_of_answers _ _ (by decide)⟩

theorem one_inv : one.Inv := by
  refine ⟨by decide, by decide, fun _ => ⟨by decide, (by decide : placementOk 1 inB outB = true), ?_⟩⟩
  show one.mem.all _ = true
  decide

theorem witness_EveryStepKeepsTheInvariant :
    (waiting (wrout one 0 0x3F800000)).Inv ∧
    ∃ t, step (waiting (wrout one 0 0x3F800000)) = .next t ∧ decide (t.readOut 0 = 0x3F800000) = true :=
  ⟨one_inv, next_of_answers _ _ (by decide)⟩

/-- Also for `DspStatePersists`: a step that runs `EQ7` and changes a history, and one that runs `PSHIFT` and
changes `PREV`. -/
theorem witness_ConfigurationAndCoefficientsAreFixed :
    (waiting (issue (.eq7 (List.replicate 7 0)))).live ≠ .unborn ∧
    (∃ t, step (waiting (issue (.eq7 (List.replicate 7 0)))) = .next t ∧ decide (t.bq ≠ one.bq) = true) ∧
    (∃ t, step (waiting (issue (.pshift 0x3F800000))) = .next t ∧ decide (t.prev ≠ one.prev) = true) :=
  ⟨by decide, next_of_answers _ _ (by decide +kernel), next_of_answers _ _ (by decide +kernel)⟩

theorem witness_DspStatePersists :
    ∃ t, step (waiting (issue (.pshift 0x3F000000))) = .next t ∧ decide (t.phase ≠ one.phase) = true :=
  next_of_answers _ _ (by decide)

theorem witness_ResultChangesOnlyByQueries :
    (waiting (issue .getin)).live ≠ .unborn ∧
    (∃ t, step (waiting (issue .getin)) = .next t ∧ decide (t.result ≠ one.result) = true) ∧
    (∃ t, step (waiting (issue .getout)) = .next t ∧ decide (t.result ≠ one.result) = true) :=
  ⟨by decide, next_of_answers _ _ (by decide), next_of_answers _ _ (by decide)⟩

/-- The first input cell and the last output cell of a block of four. -/
theorem witness_HostWriteThenRead :
    ((engine ident oneToFour).setInbox [.write 0x00010000 4 5]).live = .alive ∧
    ((engine ident oneToFour).setInbox [.write 0x00010000 4 5]).inbox = .write 0x00010000 4 5 :: [] ∧
    (0 < (engine ident oneToFour).cfgN ∧ (0x00010000#32).toNat = (engine ident oneToFour).inAddr 0) ∧
    (3 < (engine ident oneToFour).cfgN ∧ (0x0002000C#32).toNat = (engine ident oneToFour).outAddr 3) :=
  ⟨rfl, rfl, by decide, by decide⟩

/-- V-G1: the cells at the ends, the addresses just beyond them, an unaligned address and a wrong width; and steps of
`CHAIN` with both cells, with a bad source, with a bad destination and with both bad. -/
theorem witness_AccessesOutsideTheCellsAreRefused :
    one.live = .alive ∧ (0 < one.cfgN ∧ (0x00010000#32).toNat = one.inAddr 0) ∧
    ([(0x00010004, 4), (0x0000FFFC, 4), (0x00010002, 4), (0x00010000, 2), (0x00010000, 8)].all fun p : Word × Nat =>
      refuses (step (waiting (.read p.1 p.2))) .notACell && refuses (step (waiting (.write p.1 p.2 0))) .notACell) =
        true ∧
    answers (step (waiting (.forward 0x00020000 0x00010000))) (fun _ => true) = true ∧
    ([(0x00020004, 0x00010000), (0x00020000, 0x0000FFFC), (0x00020002, 0x00010002)].all fun p : Word × Word =>
      refuses (step (waiting (.forward p.1 p.2))) .notACell) = true :=
  ⟨rfl, by decide, by decide, by decide, by decide⟩

theorem witness_HostReadsReport :
    (waiting (rdin one 0)).live = .alive ∧ 0 < one.cfgN ∧ (0x00010000#32).toNat = one.inAddr 0 ∧
    (waiting (rdin one 0)).inbox = .read 0x00010000 4 :: [] ∧ (waiting .readStatus).inbox = .readStatus :: [] ∧
    (waiting .readResult).inbox = .readResult :: [] := ⟨rfl, by decide, by decide, rfl, rfl, rfl⟩

theorem witness_ChainMovesOutputToInput :
    (one.setInbox (chain one)).live = .alive ∧ 0 < one.cfgN ∧ (0x00020000#32).toNat = one.outAddr 0 ∧
    (0x00010000#32).toNat = one.inAddr 0 ∧ (one.setInbox (chain one)).inbox = .forward 0x00020000 0x00010000 :: [] :=
  ⟨rfl, by decide, by decide, by decide, rfl⟩

/-- A lawful placement; it is the premise of the statements that relate the two regions. -/
theorem one_placed : one.Placed := (by decide : placementOk 1 inB outB = true)

theorem witness_PshiftRunsTheRecurrence : one.Placed ∧ 0 < one.cfgN := ⟨one_placed, by decide⟩

theorem witness_PshiftFrame : ∃ t, exec (.pshift 0x3F800000) one = .next t := ⟨_, rfl⟩

/-- With a sample of 1.0, and with one of -0.0. -/
theorem witness_PshiftOutputIsInputWhenItFires :
    ([one, engine ident [0x80000000]].all fun s =>
      fge (fadd (s.draw 0 0) s.phase 0x3F800000) oneF && F32.isFinite (fadd (s.draw 0 0) s.phase 0x3F800000) &&
        F32.isFinite (s.readIn 0)) = true ∧ (engine ident [0x80000000]).readIn 0 = 0x80000000#32 :=
  ⟨by decide, by decide⟩

theorem witness_PshiftNaNPhaseIsPermanent : F32.isNaN (one.setPhase 0x7F800001).phase = true := by decide

/-- The largest values below 1.0, and -0.0. -/
theorem witness_PshiftPhaseStaysBelowOne :
    fge 0x3F7FFFFF 0 = true ∧ flt 0x3F7FFFFF oneF = true ∧ fge 0x80000000 0 = true ∧ flt 0x80000000 oneF = true ∧
    fge (one.setPhase 0x3F7FFFFF).phase 0 = true ∧ flt (one.setPhase 0x3F7FFFFF).phase oneF = true := by decide

theorem witness_BassIsPointwise : one.Placed ∧ 0 < one.cfgN := ⟨one_placed, by decide⟩

theorem witness_BassOutputIsBounded :
    one.Placed ∧ 0 < one.cfgN ∧ F32.isNaN (fmul (one.draw 0 2) (one.readIn 0) (bassFactor 0x80000000 one)) = false :=
  ⟨one_placed, by decide, by decide⟩

theorem witness_BassAtZeroGainIsTanh :
    one.Placed ∧ F32.isZero 0 = true ∧ F32.isZero 0x80000000 = true ∧ F32.isNaN (one.readIn 0) = false :=
  ⟨one_placed, by decide, by decide, by decide⟩

theorem witness_OutputOnlyFrame :
    (∃ t, exec (.bass 0) one = .next t) ∧ (∃ t, exec (.lofi 0 0) one = .next t) ∧ (∃ t, exec .copy one = .next t) :=
  ⟨⟨_, rfl⟩, ⟨_, rfl⟩, ⟨_, rfl⟩⟩

theorem witness_Eq7WrongCountRaises :
    ([] : List F32).length ≠ 7 ∧ (List.replicate 6 (0 : F32)).length ≠ 7 ∧ (List.replicate 8 (0 : F32)).length ≠ 7 := by
  decide

theorem witness_Eq7GainsHaveNoEffect :
    (List.replicate 7 (0 : F32)).length = 7 ∧
    ([0x7FC00000, 0x7F800000, 0xC0A00000, 0, 0x49742400, 0x80000000, 0x7FA00001] : List F32).length = 7 := by decide

theorem witness_Eq7RunsTheCascade : one.Placed ∧ (List.replicate 7 (0 : F32)).length = 7 := ⟨one_placed, by decide⟩

theorem witness_Eq7StageByStage :
    (engine mix [0x3F800000, 0, 0, 0]).Placed ∧ (List.replicate 7 (0 : F32)).length = 7 :=
  ⟨(by decide : placementOk 4 inB outB = true), by decide⟩

theorem witness_Eq7Frame :
    (∃ t, exec (.eq7 (List.replicate 7 0)) one = .next t) ∧ ∃ t, exec (.eq7 []) one = .next t :=
  ⟨⟨_, execEq7_seven _ _ rfl⟩, ⟨_, execEq7_other _ _ (by decide)⟩⟩

theorem witness_Eq7NaNHistoryIsPermanent :
    (List.replicate 7 (0 : F32)).length = 7 ∧ 0 < one.cfgN ∧
    F32.isNaN (one.setBq (one.bq.set 6 (one.bq[6].shift 0 0x7FC00000))).bq[(6 : Fin 7)].y1 = true :=
  ⟨by decide, by decide, by decide +kernel⟩

theorem witness_LofiRunsTheRecurrence : (engine ident oneToFour).Placed ∧ 1 < (engine ident oneToFour).cfgN :=
  ⟨(by decide : placementOk 4 inB outB = true), by decide⟩

/-- The last index of the largest block; the factors 1.5, -1.5, the smallest subnormal, 1 and 2^24 with either sign,
the infinities, the zeros and a NaN. -/
theorem witness_LofiHoldPattern :
    (0 < 16777216 ∧ 16777215 < 16777216) ∧
    ([0x3FC00000, 0xBFC00000, 0x00000001, i2f 1, fneg (i2f 16777216)].all fun d =>
      F32.isFinite d && !F32.isZero d) = true ∧
    (1 ≤ 16777216 ∧ (0xCB800000#32 = fneg (i2f 16777216))) ∧
    F32.isInf 0x7F800000 = true ∧ F32.isInf 0xFF800000 = true ∧ F32.isZero 0 = true ∧ F32.isZero 0x80000000 = true ∧
    F32.isNaN 0x7FC00000 = true := by decide

theorem witness_LofiZeroOrNaNFactorGivesZeros :
    F32.isZero 0x80000000 = true ∧ F32.isNaN 0x7F800001 = true ∧ 0 < one.cfgN := by decide

theorem witness_LofiOneBitIsRound : one.Placed ∧ one.cfgN ≤ 16777216 ∧ F32.isNaN (one.readIn 0) = false :=
  ⟨one_placed, by decide, by decide⟩

theorem witness_CopyMovesBits : one.Placed := one_placed

theorem witness_CopyTwiceIsCopyOnce :
    one.Placed ∧ Memory.wf one.mem = true ∧ ∃ t, exec .copy one = .next t := ⟨one_placed, by decide, _, rfl⟩

theorem witness_NoCommandWritesTheInput : one.Placed ∧ ∃ t, exec (.lofi 0 0) one = .next t := ⟨one_placed, _, rfl⟩

/-- Memory whose output cell holds something else. -/
theorem witness_OutputIgnoresOldOutput :
    one.Placed ∧ Instr.pshift 0 ≠ .getin ∧ Instr.pshift 0 ≠ .getout ∧ (List.replicate 7 (0 : F32)).length = 7 ∧
    (∀ a, one.OutsideOutput a → Memory.readByte (one.writeOut 0 0x41100000).mem a = Memory.readByte one.mem a) ∧
    (one.writeOut 0 0x41100000).mem ≠ one.mem :=
  ⟨one_placed, by decide, by decide, by decide, fun a ha => writeOut_byte one 0 a _ (by decide) ha, by decide⟩

theorem witness_LegalCommandsAlwaysSucceed :
    (∀ gains, Instr.pshift 0xBF800000 = .eq7 gains → gains.length = 7) ∧
    ∀ gains, Instr.eq7 (List.replicate 7 0) = .eq7 gains → gains.length = 7 :=
  ⟨fun _ h => (by cases h), fun gains h => (by cases h; decide)⟩

/-- A quotient that rounds down to an even pattern at a tie, the largest finite value, and the first infinity. -/
theorem witness_RoundingIsNearestTiesToEven :
    (0 < 2 ∧ roundMag 1 2 = 0 ∧ 1 < infMag ∧ roundMag 1 2 < infMag ∧ 1 ≠ roundMag 1 2) ∧
    (33554431 * 2 ^ 252 * 1 ≤ 33554431 * 2 ^ 252 ∧ roundMag (33554431 * 2 ^ 252) 1 = infMag) ∧
    roundMag (33554431 * 2 ^ 252 - 1) 1 = maxFiniteMag := by decide

/-- Finite operands whose results are finite, a tie, an underflow to zero, and a sum that overflows. -/
theorem witness_ArithmeticIsCorrectlyRounded :
    F32.isFinite 0x3F800000 = true ∧ F32.isFinite 0x40400000 = true ∧ F32.isZero 0x40400000 = false ∧
    F32.isFinite (fdiv ⟨0, 0, 0⟩ 0x3F800000 0x40400000) = true ∧
    F32.isFinite (fsub ⟨0, 0, 0⟩ 0x3F800000 0x40400000) = true ∧
    (F32.isFinite 0x33800000 = true ∧ F32.isFinite 0x3F800001 = true ∧
      F32.toUnits 0x3F800001 ≠ F32.toUnits (fadd ⟨0, 0, 0⟩ 0x3F800000 0x33800000) ∧
      Reference.distance 0x3F800001 (F32.toUnits 0x3F800000 + F32.toUnits 0x33800000) 1 =
        Reference.distance 0x3F800000 (F32.toUnits 0x3F800000 + F32.toUnits 0x33800000) 1) ∧
    (F32.isFinite 0x00000001 = true ∧ fmul ⟨0, 0, 0⟩ 0x00000001 0xBF000000 = 0x80000000#32) ∧
    F32.isInf (fadd ⟨0, 0, 0⟩ 0x7F7FFFFF 0x7F7FFFFF) = true := by decide

theorem witness_ArithmeticSpecialCases :
    F32.isInf 0x7F800000 = true ∧ F32.isInf 0xFF800000 = true ∧ F32.isZero 0 = true ∧ F32.isZero 0x80000000 = true ∧
    F32.isFinite 0x00000001 = true ∧ F32.isZero 0x00000001 = false ∧ F32.isFinite 0xFF7FFFFF = true ∧
    F32.neg 0x7F800000 ≠ F32.neg 0xFF800000 ∧ F32.isFinite 0x80000000 = true ∧
    (F32.toUnits 0x3F800000 + F32.toUnits 0xBF800000 = 0 ∧ F32.neg 0x3F800000 ≠ F32.neg 0xBF800000) ∧
    F32.isZero (fmul ⟨0, 0, 0⟩ 0x80000001 0x00000001) = true ∧
    F32.isZero (fdiv ⟨0, 0, 0⟩ 0x00000001 0xFF7FFFFF) = true := by decide

/-- NaN operands, and an invalid operation of each kind that R134 and R144 name. -/
theorem witness_NaNResultsAreQuietAndPropagate :
    (F32.isNaN 0x7FA00001 = true ∧ F32.isNaN 0xFFC00000 = true ∧ F32.isZero 0x3F800000 = false) ∧
    F32.isNaN (fadd ⟨0, 0, 0⟩ 0x7F800000 0xFF800000) = true ∧ F32.isNaN (fsub ⟨0, 0, 0⟩ 0x7F800000 0x7F800000) = true ∧
    F32.isNaN (fmul ⟨0, 0, 0⟩ 0x80000000 0x7F800000) = true ∧ F32.isNaN (fdiv ⟨0, 0, 0⟩ 0 0x80000000) = true ∧
    F32.isNaN (fdiv ⟨0, 0, 0⟩ 0x7F800000 0xFF800000) = true ∧ F32.isNaN (fmod ⟨0, 0, 0⟩ 0x3F800000 0) = true ∧
    F32.isNaN (fmod ⟨0, 0, 0⟩ 0xFF800000 0x3F800000) = true ∧ F32.isNaN (fround ⟨0, 0, 0⟩ 0x7F800001) = true ∧
    F32.isNaN (tanh32 ⟨0, 0, 0⟩ 0x7F800001) = true ∧ F32.isNaN (pow32 ⟨0, 0, 0⟩ 0x40000000 0x7FC00000) = true :=
  ⟨by decide, freeNaN_isNaN _, freeNaN_isNaN _, freeNaN_isNaN _, freeNaN_isNaN _, freeNaN_isNaN _, freeNaN_isNaN _,
    freeNaN_isNaN _, freeNaN_isNaN _, freeNaN_isNaN _, freeNaN_isNaN _⟩

theorem witness_ComparisonsFollowRealValue :
    F32.isNaN 0x7F800001 = true ∧ F32.isFinite 0x7F7FFFFF = true ∧ F32.isFinite 0x80000000 = true ∧
    F32.isInf 0x7F800000 = true ∧ F32.isInf 0xFF800000 = true := by decide

theorem witness_RoundIsExactTiesAway :
    F32.isNaN 0xFFFFFFFF = true ∧ F32.isInf 0xFF800000 = true ∧ F32.isFinite 0x4AFFFFFF = true ∧ F32.isFinite 0x4B000000 = true ∧
    0x4B000000 ≤ F32.mag 0x4B000000 := by decide

theorem witness_FmodIsTheExactRemainder :
    F32.isNaN 0x7F800001 = true ∧ F32.isFinite 0x7F7FFFFF = true ∧ F32.isFinite 0x80000001 = true ∧
    F32.isZero 0x80000001 = false ∧
    F32.isInf 0x7F800000 = true ∧ F32.isZero 0x80000000 = true := by decide

theorem witness_IndexConversionIsExact : 0 ≤ 16777216 ∧ 16777216 ≤ 16777216 := by decide

/-- 10.0, the value below it, and their negatives. -/
theorem witness_TanhNamedProperties :
    F32.isNaN 0x41200000 = false ∧ fge 0x41200000 0x41200000 = true ∧ fge 0x411FFFFF 0x41200000 = false ∧
    fge 0xC1200000 0xC1200000 = true ∧ fge 0xC1200000 0xC11FFFFF = false := by decide

/-- The ends of each clause's range: 0, k = -149 and 127, 128.0, 39.0, -151.0 and a value between them. -/
theorem witness_PowNamedProperties :
    F32.isZero 0x80000000 = true ∧ (F32.isFinite 0xC3150000 = true ∧ F32.toUnits 0xC3150000 = -149 * 2 ^ 149) ∧
    (F32.isFinite 0x42FE0000 = true ∧ F32.toUnits 0x42FE0000 = 127 * 2 ^ 149) ∧ fge 0x43000000 0x43000000 = true ∧
    fge 0x421C0000 0x421C0000 = true ∧ fge 0xC3170000 0xC3170000 = true ∧ F32.isNaN 0xC3160000 = false := by
  decide

/-! ### tanh, pow and the design of coefficients -/

/-- V-A1: the allowed results around tanh(0.5) hold the pattern nearest it, and at most three patterns. -/
theorem test_tanh_half :
    (tanhRange 0x3F000000).lo ≤ 0x3EEC9A9F ∧ 0x3EEC9A9F ≤ (tanhRange 0x3F000000).hi ∧
      (tanhRange 0x3F000000).hi - (tanhRange 0x3F000000).lo ≤ 2 := by decide +kernel

/-- V-A3: the allowed results around 10^0.3 hold the pattern nearest it, and at most three patterns. -/
theorem test_pow_ten :
    (powRange fix512.ln10 0x3E99999A).lo ≤ 0x3FFF64C2 ∧ 0x3FFF64C2 ≤ (powRange fix512.ln10 0x3E99999A).hi ∧
      (powRange fix512.ln10 0x3E99999A).hi - (powRange fix512.ln10 0x3E99999A).lo ≤ 2 := by decide +kernel

/-- V-D1: the design of a peaking stage at 0 dB. -/
theorem test_design_peaking :
    realPeaking 0x447A0000 0x472C4400 0x3F800000 0 =
      some ⟨0x3F800000, 0xBFEC9B8C, 0x3F5E0F25, 0xBFEC9B8C, 0x3F5E0F25⟩ := by decide +kernel

/-- R165, R171 by hand, with 12 Hz or 36 Hz at a rate of 48 (sin w = 1 or -1, cos w = 0): at 12000 dB and Q = 5 the
gain 10^600 makes b0 and b2 infinite and a2 one; at 0 dB and Q = 0.5, with 36 Hz, a0 = 1 - 1 is a zero divisor. -/
theorem test_design_extremes :
    designPeaking 0x41400000 0x42400000 0x40A00000 0x463B8000 = ⟨0x7F800000, 0, 0xFF800000, 0, 0x3F800000⟩ ∧
    realPeaking 0x42100000 0x42400000 0x3F000000 0 = none := by decide +kernel

/-- R165 by hand, with 12 Hz at a rate of 48, 20 dB and Q = 838860.75: b0/a0 = 1 + 99/2^24 is a tie and goes to the even
pattern; b2/a0 = 16777115/2^24 and a2/a0 = 16777214/2^24 are exact. -/
theorem test_design_tie :
    designPeaking 0x41400000 0x42400000 0x494CCCCC 0x41A00000 = ⟨0x3F800032, 0, 0x3F7FFF9B, 0, 0x3F7FFFFE⟩ := by
  decide +kernel

theorem witness_PeakingAtZeroGainIsFlat :
    ∃ c, realPeaking 0x447A0000 0x472C4400 0x3F800000 0 = some c := ⟨_, test_design_peaking⟩

end Sys2Proof.Tests
end

section
/-! PROOFS. The registers of the state (spec/10_state.md): what a command and a step leave unchanged, the invariant, and
the state a reset leaves. -/

namespace Sys2Proof.Machine

/-! ### Registers a loop leaves alone -/

/-- What every iteration keeps, the loop keeps. -/
theorem forSamples_keeps {α β : Type} (f : α → β) (body : Nat → α → α) (h : ∀ i a, f (body i a) = f a) (n : Nat)
    (a : α) : f (forSamples body n a) = f a :=
  forSamples_induct body (fun _ b => f b = f a) n a rfl fun i b _ hb => (h i b).trans hb

theorem pshiftLoop_bq (pf : F32) (n : Nat) (s : State) : (forSamples (pshiftSample pf) n s).bq = s.bq :=
  forSamples_keeps State.bq _ (pshiftSample_bq pf) n s

theorem bassLoop_eq (bf : F32) (n : Nat) (s : State) :
    forSamples (bassSample bf) n s = s.setMem (forSamples (bassSample bf) n s).mem :=
  forSamples_writeOut_regs _ n s

theorem lofiLoop_eq (levels dsf : F32) (n : Nat) (s : State) :
    forSamples (lofiSample levels dsf) n s = s.setMem (forSamples (lofiSample levels dsf) n s).mem := by
  rw [funext₂ (lofiSample_eq levels dsf)]
  exact forSamples_writeOut_regs _ n s

theorem copyLoop_eq (n : Nat) (s : State) : forSamples copySample n s = s.setMem (forSamples copySample n s).mem :=
  forSamples_writeOut_regs _ n s

theorem eq7Loop_phase (n : Nat) (s : State) : (forSamples eq7Sample n s).phase = s.phase :=
  forSamples_keeps State.phase _ eq7Sample_phase n s

theorem eq7Loop_prev (n : Nat) (s : State) : (forSamples eq7Sample n s).prev = s.prev :=
  forSamples_keeps State.prev _ eq7Sample_prev n s

/-! ### The coefficient registers -/

/-- The five coefficients of a stage (spec/10_state.md R42). -/
def Biquad.coef (b : Biquad) : Coef := ⟨b.b0, b.b1, b.b2, b.a1, b.a2⟩

/-- The thirty-five coefficient registers (spec/10_state.md R42). -/
def State.coefs (s : State) : Vector Coef 7 := s.bq.map Biquad.coef

theorem Biquad.coef_eq_iff (b c : Biquad) :
    b.coef = c.coef ↔ b.b0 = c.b0 ∧ b.b1 = c.b1 ∧ b.b2 = c.b2 ∧ b.a1 = c.a1 ∧ b.a2 = c.a2 :=
  Coef.mk.injEq .. ▸ Iff.rfl

theorem State.coefs_getElem (s : State) (k : Fin 7) : s.coefs[k] = s.bq[k].coef := Vector.getElem_map ..

/-- Equal tables of coefficients are equal coefficient registers, stage by stage. -/
theorem State.coef_registers_eq {s t : State} (h : t.coefs = s.coefs) (k : Fin 7) :
    t.bq[k].b0 = s.bq[k].b0 ∧ t.bq[k].b1 = s.bq[k].b1 ∧ t.bq[k].b2 = s.bq[k].b2 ∧
      t.bq[k].a1 = s.bq[k].a1 ∧ t.bq[k].a2 = s.bq[k].a2 := by
  rw [← Biquad.coef_eq_iff, ← State.coefs_getElem, ← State.coefs_getElem, h]

/-- A biquad step shifts a history and leaves the coefficients alone (spec/41_biquad.md R161). -/
theorem biquadStep_coefs (i : Nat) (k : Fin 7) (v : F32 × State) : (biquadStep i k v).2.coefs = v.2.coefs := by
  rw [biquadStep_state, State.coefs, State.setBq_bq, State.coefs]
  ext1 j hj
  simp only [Vector.getElem_map, Vector.getElem_set]
  split
  · next hk => subst hk; rfl
  · rfl

theorem foldl_biquad_coefs (i : Nat) (ks : List (Fin 7)) (v : F32 × State) :
    (ks.foldl (fun acc k => biquadStep i k acc) v).2.coefs = v.2.coefs := by
  induction ks generalizing v with
  | nil => rfl
  | cons k ks ih => rw [List.foldl_cons, ih, biquadStep_coefs]

theorem bank_coefs (i : Nat) (v : F32) (s : State) : (bank i v s).2.coefs = s.coefs :=
  foldl_biquad_coefs i stageOrder (v, s)

theorem eq7Sample_coefs (i : Nat) (s : State) : (eq7Sample i s).coefs = s.coefs := by
  rw [eq7Sample_eq, State.coefs, State.writeOut_bq, State.setBq_bq]
  exact bank_coefs i _ s

theorem eq7Loop_coefs (n : Nat) (s : State) : (forSamples eq7Sample n s).coefs = s.coefs :=
  forSamples_keeps State.coefs _ eq7Sample_coefs n s

/-! ### The frame of a command (spec/10_state.md R48) -/

theorem exec_eq7_seven {gains : List F32} {s : State} (h : gains.length = 7) :
    exec (.eq7 gains) s = .next ((forSamples eq7Sample s.cfgN s).nextDraws.setStatus statusOk) :=
  execEq7_seven gains s h

theorem exec_eq7_other {gains : List F32} {s : State} (h : gains.length ≠ 7) :
    exec (.eq7 gains) s = .next (s.setStatus statusInvalidArgument) :=
  execEq7_other gains s h

/-- Only `PSHIFT` changes `PHASE` and `PREV`. -/
theorem exec_phase_prev {i : Instr} {s t : State} (h : exec i s = .next t) (hi : ∀ pf, i ≠ .pshift pf) :
    t.phase = s.phase ∧ t.prev = s.prev := by
  cases i with
  | pshift pf => exact absurd rfl (hi pf)
  | bass db => cases h; rw [bassLoop_eq]; exact ⟨rfl, rfl⟩
  | eq7 gains =>
    by_cases hg : gains.length = 7
    · cases (exec_eq7_seven hg).symm.trans h
      exact ⟨eq7Loop_phase _ s, eq7Loop_prev _ s⟩
    · cases (exec_eq7_other hg).symm.trans h
      exact ⟨rfl, rfl⟩
  | lofi bd dsf => cases h; rw [lofiLoop_eq]; exact ⟨rfl, rfl⟩
  | copy => cases h; rw [copyLoop_eq]; exact ⟨rfl, rfl⟩
  | getin => cases h; exact ⟨rfl, rfl⟩
  | getout => cases h; exact ⟨rfl, rfl⟩

/-- Only `EQ7` with seven gains changes a stage. -/
theorem exec_bq {i : Instr} {s t : State} (h : exec i s = .next t)
    (hi : ∀ gains, i = .eq7 gains → gains.length ≠ 7) : t.bq = s.bq := by
  cases i with
  | pshift pf => cases h; exact pshiftLoop_bq pf _ s
  | bass db => cases h; rw [bassLoop_eq]; rfl
  | eq7 gains => cases (exec_eq7_other (hi gains rfl)).symm.trans h; rfl
  | lofi bd dsf => cases h; rw [lofiLoop_eq]; rfl
  | copy => cases h; rw [copyLoop_eq]; rfl
  | getin => cases h; rfl
  | getout => cases h; rfl

/-- No command changes a coefficient. -/
theorem exec_coefs {i : Instr} {s t : State} (h : exec i s = .next t) : t.coefs = s.coefs := by
  by_cases hi : ∃ gains, i = .eq7 gains ∧ gains.length = 7
  · obtain ⟨gains, rfl, hg⟩ := hi
    cases (exec_eq7_seven hg).symm.trans h
    exact eq7Loop_coefs _ s
  · rw [State.coefs, exec_bq h fun gains hg hl => hi ⟨gains, hg, hl⟩, State.coefs]

/-- Only the queries change `RESULT`. -/
theorem exec_result {i : Instr} {s t : State} (h : exec i s = .next t) (hin : i ≠ .getin) (hout : i ≠ .getout) :
    t.result = s.result := by
  cases i with
  | pshift pf => cases h; exact ((pshiftSample_body pf).loop s _ le_rfl).result
  | bass db => cases h; rw [bassLoop_eq]; rfl
  | eq7 gains =>
    by_cases hg : gains.length = 7
    · cases (exec_eq7_seven hg).symm.trans h
      exact (eq7Sample_body.loop s _ le_rfl).result
    · cases (exec_eq7_other hg).symm.trans h
      rfl
  | lofi bd dsf => cases h; rw [lofiLoop_eq]; rfl
  | copy => cases h; rw [copyLoop_eq]; rfl
  | getin => exact absurd rfl hin
  | getout => exact absurd rfl hout

/-- What no command changes, whichever it is. -/
structure CommandFrame (s t : State) : Prop where
  live : t.live = s.live
  cfgN : t.cfgN = s.cfgN
  cfgSR : t.cfgSR = s.cfgSR
  inBase : t.inBase = s.inBase
  outBase : t.outBase = s.outBase
  inbox : t.inbox = s.inbox
  observed : t.observed = s.observed
  bytes : ∀ a, s.OutsideOutput a → Memory.readByte t.mem a = Memory.readByte s.mem a

theorem exec_frame {i : Instr} {s t : State} (h : exec i s = .next t) : CommandFrame s t := by
  rcases exec_next i s t h with ⟨u, hu, rfl | rfl⟩ | rfl | ⟨a, rfl⟩
  · exact ⟨hu.live, hu.cfgN, hu.cfgSR, hu.inBase, hu.outBase, hu.inbox, hu.observed, hu.bytes⟩
  · exact ⟨hu.live, hu.cfgN, hu.cfgSR, hu.inBase, hu.outBase, hu.inbox, hu.observed, hu.bytes⟩
  · exact ⟨rfl, rfl, rfl, rfl, rfl, rfl, rfl, fun _ _ => rfl⟩
  · exact ⟨rfl, rfl, rfl, rfl, rfl, rfl, rfl, fun _ _ => rfl⟩

/-- The frame as one equation: the fields of `t` that a command may change, over `s`. -/
theorem CommandFrame.eq {s t : State} (h : CommandFrame s t) :
    t = { s with status := t.status, result := t.result, phase := t.phase, prev := t.prev, bq := t.bq, mem := t.mem,
                 draws := t.draws } := by
  rw [← h.live, ← h.cfgN, ← h.cfgSR, ← h.inBase, ← h.outBase, ← h.inbox, ← h.observed]

/-- Settles O23: `PSHIFT` is neither an `EQ7` nor a query. -/
theorem pshiftFrame : Obligations.PshiftFrame := by
  unfold Obligations.PshiftFrame
  intro s t pf h
  have hbq : t.bq = s.bq := exec_bq h (by simp)
  have hresult : t.result = s.result := exec_result h (by simp) (by simp)
  exact ⟨(exec_frame h).eq.trans (by rw [hbq, hresult]), (exec_frame h).bytes⟩

/-- Settles O30: the three commands are none of `PSHIFT`, `EQ7` and the queries. -/
theorem outputOnlyFrame : Obligations.OutputOnlyFrame := by
  unfold Obligations.OutputOnlyFrame
  intro i s t hi h
  obtain ⟨hpshift, heq7, hgetin, hgetout⟩ :
      (∀ pf, i ≠ .pshift pf) ∧ (∀ gains, i ≠ .eq7 gains) ∧ i ≠ .getin ∧ i ≠ .getout := by
    rcases hi with ⟨db, rfl⟩ | ⟨bd, dsf, rfl⟩ | rfl <;> simp
  obtain ⟨hphase, hprev⟩ : t.phase = s.phase ∧ t.prev = s.prev := exec_phase_prev h hpshift
  have hbq : t.bq = s.bq := exec_bq h fun gains hg => absurd hg (heq7 gains)
  have hresult : t.result = s.result := exec_result h hgetin hgetout
  exact ⟨(exec_frame h).eq.trans (by rw [hphase, hprev, hbq, hresult]), (exec_frame h).bytes⟩

/-- Settles O36: `EQ7` is neither `PSHIFT` nor a query, and no command changes a coefficient. -/
theorem eq7Frame : Obligations.Eq7Frame := by
  unfold Obligations.Eq7Frame
  intro s t gains h
  obtain ⟨hphase, hprev⟩ : t.phase = s.phase ∧ t.prev = s.prev := exec_phase_prev h (by simp)
  have hresult : t.result = s.result := exec_result h (by simp) (by simp)
  exact ⟨(exec_frame h).eq.trans (by rw [hphase, hprev, hresult]), State.coef_registers_eq (exec_coefs h),
    (exec_frame h).bytes⟩

/-! ### The frame of a step -/

@[simp] theorem pushWords_live (s : State) (rest : List Word) : (s.pushWords rest).live = s.live := by
  rw [pushWords_eq, State.setInbox_live]

/-- The registers that only a command or a reset changes: all but `LIVE` and `STATUS`. -/
structure SameRegisters (s t : State) : Prop where
  cfgN : t.cfgN = s.cfgN
  cfgSR : t.cfgSR = s.cfgSR
  inBase : t.inBase = s.inBase
  outBase : t.outBase = s.outBase
  result : t.result = s.result
  phase : t.phase = s.phase
  prev : t.prev = s.prev
  bq : t.bq = s.bq

theorem SameRegisters.refl (s : State) : SameRegisters s s := ⟨rfl, rfl, rfl, rfl, rfl, rfl, rfl, rfl⟩

/-- Taking a delivery from the inbox, and leaving its last words there. -/
theorem pushWords_sameRegisters (s : State) (moves : List HostMove) (rest : List Word) :
    SameRegisters s ((s.setInbox moves).pushWords rest) := by
  rw [pushWords_eq]
  exact ⟨rfl, rfl, rfl, rfl, rfl, rfl, rfl, rfl⟩

/-- After construction a step runs a command, on a state with the registers as they were, or changes none of these
registers. -/
theorem step_registers_or_command {s t : State} (hl : s.live ≠ .unborn) (h : step s = .next t) :
    SameRegisters s t ∨
      ∃ ws moves i rest u, s.inbox = .packet ws :: moves ∧ decode ws = .command i rest ∧ SameRegisters s u ∧
        exec i u = .next t := by
  obtain ⟨-, rfl⟩ | ⟨m, moves, hm, ⟨_, _, _, _, -, hu, -⟩ | ⟨-, hmove⟩⟩ := step_next s t h
  · exact .inl (.refl t)
  · exact absurd hu hl
  · cases hmove with
    | command ws i rest _ hd he =>
      exact .inr ⟨ws, moves, i, rest, _, hm, hd, pushWords_sameRegisters s moves rest, he⟩
    | illegal => rw [pushWords_eq]; exact .inl ⟨rfl, rfl, rfl, rfl, rfl, rfl, rfl, rfl⟩
    | destroy | write | read | forward | readStatus | readResult =>
      exact .inl ⟨rfl, rfl, rfl, rfl, rfl, rfl, rfl, rfl⟩

/-- Settles O17: neither a command nor any other move of the host writes these registers. -/
theorem configurationAndCoefficientsAreFixed : Obligations.ConfigurationAndCoefficientsAreFixed := by
  unfold Obligations.ConfigurationAndCoefficientsAreFixed
  intro s t hl h
  obtain hs | ⟨_, _, i, _, u, -, -, hu, he⟩ := step_registers_or_command hl h
  · have hcoefs : t.coefs = s.coefs := by rw [State.coefs, hs.bq, State.coefs]
    exact ⟨hs.cfgN, hs.cfgSR, hs.inBase, hs.outBase, State.coef_registers_eq hcoefs⟩
  · have hf := exec_frame he
    have hcoefs : t.coefs = s.coefs := by rw [exec_coefs he, State.coefs, hu.bq, State.coefs]
    exact ⟨hf.cfgN.trans hu.cfgN, hf.cfgSR.trans hu.cfgSR, hf.inBase.trans hu.inBase, hf.outBase.trans hu.outBase,
      State.coef_registers_eq hcoefs⟩

/-- Settles O47: a change of these registers is the work of a command, and only of a command of that kind. -/
theorem dspStatePersists : Obligations.DspStatePersists := by
  unfold Obligations.DspStatePersists
  intro s t hl h
  obtain hs | ⟨ws, moves, i, rest, u, hin, hd, hu, he⟩ := step_registers_or_command hl h
  · exact ⟨fun hne => absurd ⟨hs.phase, hs.prev⟩ (not_and_or.mpr hne), fun hne => absurd hs.bq hne⟩
  · rw [← hu.phase, ← hu.prev, ← hu.bq]
    constructor
    · intro hne
      by_contra hno
      refine absurd (exec_phase_prev he ?_) (not_and_or.mpr hne)
      rintro pf rfl
      exact hno ⟨ws, moves, pf, rest, hin, hd⟩
    · intro hne
      by_contra hno
      refine hne (exec_bq he ?_)
      rintro gains rfl hg
      exact hno ⟨ws, moves, gains, rest, hin, hd, hg⟩

/-- Settles O48: a change of `RESULT` is the work of a command, and of none but the queries. -/
theorem resultChangesOnlyByQueries : Obligations.ResultChangesOnlyByQueries := by
  unfold Obligations.ResultChangesOnlyByQueries
  intro s t hl h hne
  obtain hs | ⟨ws, moves, i, rest, u, hin, hd, hu, he⟩ := step_registers_or_command hl h
  · exact absurd hs.result hne
  · refine ⟨ws, moves, i, rest, hin, hd, ?_⟩
    by_contra hno
    obtain ⟨hgetin, hgetout⟩ := not_or.mp hno
    exact hne ((exec_result he hgetin hgetout).trans hu.result)

/-! ### `LIVE` (spec/10_state.md R36) -/

theorem AliveMove.live {u t : State} {m : HostMove} (h : AliveMove u m t) :
    t.live = u.live ∨ (m = .destroy ∧ t.live = .dead) := by
  cases h with
  | destroy => exact .inr ⟨rfl, rfl⟩
  | command _ _ _ _ _ he => exact .inl ((exec_frame he).live.trans (pushWords_live u _))
  | illegal => exact .inl (pushWords_live u _)
  | write | read | forward | readStatus | readResult => exact .inl rfl

/-- Settles O14, by the three things a step can do. -/
theorem onlyResetAndDestroyMoveLive : Obligations.OnlyResetAndDestroyMoveLive := by
  unfold Obligations.OnlyResetAndDestroyMoveLive
  intro s t h
  obtain ⟨-, rfl⟩ | ⟨m, moves, hm, ⟨n, r, a, b, rfl, hl, -, -, rfl⟩ | ⟨hl, hmove⟩⟩ := step_next s t h
  · exact .inl rfl
  · exact .inr (.inl ⟨hl, rfl, n, r, some (a, b), moves, hm⟩)
  · obtain hlive | ⟨rfl, hdead⟩ := hmove.live
    · exact .inl hlive
    · exact .inr (.inr ⟨hl, hdead, moves, hm⟩)

/-! ### The invariant -/

theorem State.Inv.status_le {s : State} (hi : s.Inv) : s.status.toNat ≤ 2 := by
  obtain ⟨-, hstatus, -⟩ := hi
  exact hstatus

theorem setInbox_inv {s : State} (hi : s.Inv) (moves : List HostMove) : (s.setInbox moves).Inv :=
  inv_of_same s _ hi rfl hi.status_le rfl rfl rfl rfl rfl

theorem observe_inv {s : State} (hi : s.Inv) (o : Observation) : (s.observe o).Inv :=
  inv_of_same s _ hi rfl hi.status_le rfl rfl rfl rfl rfl

theorem pushWords_inv {s : State} (hi : s.Inv) (rest : List Word) : (s.pushWords rest).Inv := by
  rw [pushWords_eq]
  exact setInbox_inv hi _

theorem setStatus_inv {s : State} (hi : s.Inv) {v : BitVec 8} (hv : v.toNat ≤ 2) : (s.setStatus v).Inv :=
  inv_of_same s _ hi rfl hv rfl rfl rfl rfl rfl

/-- A destruction keeps the invariant: what was constructed stays as it was. -/
theorem setLive_dead_inv {s : State} (hi : s.Inv) (hl : s.live = .alive) : (s.setLive .dead).Inv := by
  obtain ⟨hwf, hstatus, hconstructed⟩ := hi
  exact ⟨hwf, hstatus, fun _ => hconstructed (by rw [hl]; decide)⟩

/-- The state right after a construction meets the invariant: memory is empty. -/
theorem construct_inv {n : Nat} {r : F32} {inB outB : Word} (coef : Vector Coef 7) (hr : resetArgsOk n r = true)
    (hp : placementOk n inB outB = true) : (State.construct n r inB outB coef).Inv :=
  ⟨rfl, Nat.zero_le 2, fun _ => ⟨hr, hp, rfl⟩⟩

theorem constructed_inv {n : Nat} {r : F32} {inB outB : Word} (s : State) (hr : resetArgsOk n r = true)
    (hp : placementOk n inB outB = true) : (constructed n r inB outB s).Inv :=
  construct_inv (Config.coef r) hr hp

/-- A move of the host on a live engine keeps the invariant. -/
theorem AliveMove.inv {u t : State} {m : HostMove} (h : AliveMove u m t) (hl : u.live = .alive) (hi : u.Inv) :
    t.Inv := by
  cases h with
  | destroy => exact setLive_dead_inv hi hl
  | command ws i rest _ _ he => exact exec_inv i _ _ (pushWords_inv hi rest) he
  | illegal ws _ _ rest _ => exact setStatus_inv (pushWords_inv hi rest) (by decide)
  | write addr v hc => exact writeCell_inv u _ v hi hl hc
  | read => exact observe_inv hi _
  | forward src dst _ hd => exact writeCell_inv _ _ _ (observe_inv hi _) hl hd
  | readStatus => exact observe_inv hi _
  | readResult => exact observe_inv hi _

/-- Settles O16, by the three things a step can do. -/
theorem everyStepKeepsTheInvariant : Obligations.EveryStepKeepsTheInvariant := by
  unfold Obligations.EveryStepKeepsTheInvariant
  intro s t hi h
  obtain ⟨-, rfl⟩ | ⟨m, moves, -, ⟨_, _, _, _, -, -, hr, hp, rfl⟩ | ⟨hl, hmove⟩⟩ := step_next s t h
  · exact hi
  · exact constructed_inv _ hr hp
  · exact hmove.inv hl (setInbox_inv hi moves)

/-! ### Reset (spec/10_state.md R50) -/

/-- A reset with lawful arguments and a lawful placement constructs the engine. -/
theorem step_reset {s : State} {n : Nat} {r : F32} {inB outB : Word} {moves : List HostMove} (hl : s.live = .unborn)
    (hin : s.inbox = .reset n r (some (inB, outB)) :: moves) (hr : resetArgsOk n r = true)
    (hp : placementOk n inB outB = true) : step s = .next (constructed n r inB outB (s.setInbox moves)) := by
  simp [step, hin, hostMove, hostReset, hl, hr, hp]

/-- Memory with no entry reads as zero (spec/10_state.md R45). -/
@[simp] theorem readWord_nil (a : Nat) : Memory.readWord [] a = 0 := by
  simp only [Memory.readWord, Memory.readByte, Memory.unlisted]; decide

theorem constructed_stage (n : Nat) (r : F32) (inB outB : Word) (s : State) (k : Fin 7) :
    (constructed n r inB outB s).bq[k] = Biquad.fresh (Config.coef r)[k] := Vector.getElem_map ..

/-- Settles O11: each value stands in `constructed`. -/
theorem resetLeavesTheStatedValues : Obligations.ResetLeavesTheStatedValues := by
  unfold Obligations.ResetLeavesTheStatedValues
  intro s n r inB outB moves hl hin hr hp
  refine ⟨_, step_reset hl hin hr hp, rfl, rfl, rfl, rfl, rfl, rfl, rfl, rfl, rfl, fun k => ?_,
    fun i _ => ⟨readWord_nil _, readWord_nil _⟩, rfl, rfl⟩
  rw [constructed_stage]
  exact ⟨rfl, rfl, rfl, rfl, rfl⟩

/-! ### The configuration of `State.reset`, left unspecified, is lawful (log entries 5 and 6) -/

theorem bufferSize_bounds : 1 ≤ Config.bufferSize ∧ Config.bufferSize ≤ 16777216 :=
  ⟨Nat.succ_pos _, Config.bufferSizePred.isLt⟩

theorem sampleRate_toNat : Config.sampleRate.toNat = Config.sampleRatePred.val + 1 := by
  have hlt := Config.sampleRatePred.isLt
  rw [Config.sampleRate, BitVec.toNat_ofNat]
  omega

/-- The rate is a pattern of a finite value above zero. -/
theorem config_resetArgsOk : resetArgsOk Config.bufferSize Config.sampleRate = true := by
  have hlt := Config.sampleRatePred.isLt
  have hmag : F32.mag Config.sampleRate = Config.sampleRatePred.val + 1 := by
    rw [F32.mag, sampleRate_toNat]; omega
  refine (resetArgsOk_iff _ _).mpr ⟨bufferSize_bounds.1, bufferSize_bounds.2, ?_, ?_, ?_⟩
  · rw [F32.isFinite, hmag, infMag]; simp only [decide_eq_true_eq]; omega
  · rw [F32.isZero, hmag]; simp
  · rw [F32.neg, BitVec.msb_eq_decide, sampleRate_toNat]; simp only [decide_eq_false_iff_not]; omega

/-- The lower region leaves room for two. -/
theorem lowerCell_le {n : Nat} : Config.lowerCell n ≤ 2 ^ 30 - 2 * n := by
  rw [Config.lowerCell]
  exact Nat.le_of_lt_succ (Nat.mod_lt _ (Nat.succ_pos _))

/-- The upper region starts at or past the lower one's end and leaves room for its cells. -/
theorem upperCell_bounds {n : Nat} (hn : 2 * n ≤ 2 ^ 30) :
    Config.lowerCell n + n ≤ Config.upperCell n ∧ Config.upperCell n + n ≤ 2 ^ 30 := by
  have hlower := lowerCell_le (n := n)
  have hgap := Nat.mod_lt Config.gap (show 0 < 2 ^ 30 - 2 * n - Config.lowerCell n + 1 by omega)
  rw [Config.upperCell]
  omega

/-- Two regions by their first cell numbers, the first region the lower. -/
theorem placementOk_cells {n lo hi : Nat} (hn : 1 ≤ n) (h : lo + n ≤ hi) (htop : hi + n ≤ 2 ^ 30) :
    placementOk n (BitVec.ofNat 32 (4 * lo)) (BitVec.ofNat 32 (4 * hi)) = true ∧
      placementOk n (BitVec.ofNat 32 (4 * hi)) (BitVec.ofNat 32 (4 * lo)) = true := by
  have hlo : (BitVec.ofNat 32 (4 * lo)).toNat = 4 * lo := by rw [BitVec.toNat_ofNat]; omega
  have hhi : (BitVec.ofNat 32 (4 * hi)).toNat = 4 * hi := by rw [BitVec.toNat_ofNat]; omega
  rw [placementOk_iff, placementOk_iff, hlo, hhi]
  omega

theorem config_placementOk : placementOk Config.bufferSize Config.inBase Config.outBase = true := by
  obtain ⟨hpos, hmax⟩ := bufferSize_bounds
  obtain ⟨horder, htop⟩ := upperCell_bounds (n := Config.bufferSize) (by omega)
  obtain ⟨hinputLow, hinputHigh⟩ := placementOk_cells hpos horder htop
  rw [Config.inBase, Config.outBase]
  split
  · exact hinputLow
  · exact hinputHigh

/-- Settles O15: the configuration is lawful, and the unborn state has nothing constructed. -/
theorem resetStateMeetsTheInvariant : Obligations.ResetStateMeetsTheInvariant := by
  unfold Obligations.ResetStateMeetsTheInvariant
  exact ⟨construct_inv _ config_resetArgsOk config_placementOk, rfl, by decide, fun h => absurd rfl h⟩

end Sys2Proof.Machine
end

section
/-! PROOFS. Memory (spec/20_memory.md): what the host's accesses to the cells do and which are refused, what no command
writes, and that no effect operation sees what the output region held before it. -/

namespace Sys2Proof.Machine

/-! ### Host accesses (spec/20_memory.md R72 to R78) -/

/-- An access is accepted exactly when it is of 4 bytes and at a cell address (spec/20_memory.md R75, R78). -/
theorem accessOk_iff_cell (s : State) (addr : Word) (width : Nat) :
    s.accessOk addr width = true ↔
      width = 4 ∧ ∃ i, i < s.cfgN ∧ (addr.toNat = s.inAddr i ∨ addr.toNat = s.outAddr i) := by
  rw [accessOk_iff, isCellAddr_iff]

section
variable {s : State} {moves : List HostMove}

/-- A step of an engine that is `Alive` and has a write to make. -/
theorem step_write {addr v : Word} {width : Nat} (hl : s.live = .alive) (hm : s.inbox = .write addr width v :: moves) :
    step s = if s.accessOk addr width then .next ((s.setInbox moves).writeCell addr.toNat v) else .refused .notACell := by
  rw [step, hm]
  exact if_pos hl

/-- A step of an engine that is `Alive` and has a read to make. -/
theorem step_read {addr : Word} {width : Nat} (hl : s.live = .alive) (hm : s.inbox = .read addr width :: moves) :
    step s = if s.accessOk addr width then .next ((s.setInbox moves).observe (.cell addr (s.readCell addr.toNat)))
      else .refused .notACell := by
  rw [step, hm]
  exact if_pos hl

/-- A step of an engine that is `Alive` and has a step of `CHAIN` to make. -/
theorem step_forward {src dst : Word} (hl : s.live = .alive) (hm : s.inbox = .forward src dst :: moves) :
    step s = if s.accessOk src 4 && s.accessOk dst 4 then
        .next (((s.setInbox moves).observe (.cell src (s.readCell src.toNat))).writeCell dst.toNat (s.readCell src.toNat))
      else .refused .notACell := by
  rw [step, hm]
  exact if_pos hl

end

/-- Settles O18: the step is a cell write, and the laws of cell writes say the rest. -/
theorem hostWriteThenRead : Obligations.HostWriteThenRead := by
  unfold Obligations.HostWriteThenRead
  intro s addr v moves hl hm hcell
  have hstep : step s = .next ((s.setInbox moves).writeCell addr.toNat v) :=
    (step_write hl hm).trans (if_pos ((accessOk_iff_cell s addr 4).mpr ⟨rfl, hcell⟩))
  exact ⟨_, hstep, rfl, readWord_writeWord_same _ _ _, fun k hk => readByte_writeWord_inside _ _ k v hk,
    fun a ha => readByte_writeWord_outside _ _ a v ha⟩

/-- Settles O19: each access is made under the one test `accessOk`, a step of `CHAIN` under two. -/
theorem accessesOutsideTheCellsAreRefused : Obligations.AccessesOutsideTheCellsAreRefused := by
  unfold Obligations.AccessesOutsideTheCellsAreRefused
  intro s moves hl
  refine ⟨fun addr v width => ?_, fun src dst hm => ?_⟩
  · split
    · next hcell =>
      have hok := (accessOk_iff_cell s addr width).mpr hcell
      exact ⟨fun hm => ⟨_, (step_write hl hm).trans (if_pos hok)⟩, fun hm => ⟨_, (step_read hl hm).trans (if_pos hok)⟩⟩
    · next hcell =>
      have hno := mt (accessOk_iff_cell s addr width).mp hcell
      exact ⟨fun hm => (step_write hl hm).trans (if_neg hno), fun hm => (step_read hl hm).trans (if_neg hno)⟩
  · have hboth : (s.accessOk src 4 && s.accessOk dst 4) = true ↔
        (∃ i, i < s.cfgN ∧ (src.toNat = s.inAddr i ∨ src.toNat = s.outAddr i)) ∧
          ∃ i, i < s.cfgN ∧ (dst.toNat = s.inAddr i ∨ dst.toNat = s.outAddr i) := by
      simp only [Bool.and_eq_true, accessOk_iff_cell, true_and]
    split
    · next hcells => exact ⟨_, (step_forward hl hm).trans (if_pos (hboth.mpr hcells))⟩
    · next hcells => exact (step_forward hl hm).trans (if_neg (mt hboth.mp hcells))

/-! ### The input region (spec/20_memory.md R82) -/

/-- Where the bytes outside the output region agree and the registers of the configuration are the same, the input
cells agree. -/
theorem readIn_congr {s t : State} (hp : s.Placed) (hbase : t.inBase = s.inBase)
    (hbytes : ∀ a, s.OutsideOutput a → Memory.readByte t.mem a = Memory.readByte s.mem a) {i : Nat} (hi : i < s.cfgN) :
    t.readIn i = s.readIn i := by
  rw [State.readIn, State.inAddr, hbase]
  exact readWord_congr _ _ _ fun k hk => hbytes _ (Placed_inByte s hp i k hi hk)

/-- Settles O45: the frame of a command leaves every byte outside the output region alone. -/
theorem noCommandWritesTheInput : Obligations.NoCommandWritesTheInput := by
  unfold Obligations.NoCommandWritesTheInput
  intro i s t hp h
  have hframe : CommandFrame s t := exec_frame h
  rw [State.inCells, State.inCells, hframe.cfgN]
  exact List.map_congr_left fun j hj => readIn_congr hp hframe.inBase hframe.bytes (List.mem_range.mp hj)

/-! ### What the output region held before a command (spec/20_memory.md R83)

Two runs of one loop from memories that differ in the output region only: after `n` iterations the states differ only in
the output cells from `n` on, because an iteration reads its input cell and at most an output cell already written. -/

/-- `t` is `s` but for the output cells from `n` on. -/
structure AgreeUpTo (n : Nat) (s t : State) : Prop where
  regs : t = s.setMem t.mem
  bytes : ∀ a, s.OutsideOutput a → Memory.readByte t.mem a = Memory.readByte s.mem a
  done : ∀ j < n, t.readOut j = s.readOut j

namespace AgreeUpTo
variable {n i : Nat} {s t : State}

/-- What does not depend on memory is the same on both sides. -/
theorem same {α : Type} (h : AgreeUpTo n s t) (f : State → α) (hf : ∀ m, f (s.setMem m) = f s) : f t = f s := by
  rw [h.regs, hf]

theorem draw (h : AgreeUpTo n s t) : t.draw = s.draw := h.same State.draw fun _ => rfl

theorem readIn (h : AgreeUpTo n s t) (hp : s.Placed) (hi : i < s.cfgN) : t.readIn i = s.readIn i :=
  readIn_congr hp (h.same State.inBase fun _ => rfl) h.bytes hi

/-- Updates of registers alone, the same on both sides, keep the agreement. -/
theorem registers {s' t' : State} (h : AgreeUpTo n s t) (hs : s'.mem = s.mem ∧ s'.outBase = s.outBase ∧ s'.cfgN = s.cfgN)
    (ht : t' = s'.setMem t.mem) : AgreeUpTo n s' t' := by
  obtain ⟨hmem, hbase, hcfg⟩ := hs
  subst ht
  refine ⟨rfl, fun a ha => ?_, fun j hj => ?_⟩
  · rw [State.OutsideOutput, hbase, hcfg] at ha
    rw [State.setMem_mem, hmem, h.bytes a ha]
  · have hdone := h.done j hj
    rw [h.regs] at hdone
    rw [State.readOut, State.readOut, State.readCell, State.readCell, State.setMem_outAddr, State.setMem_mem, hmem,
      State.outAddr, hbase]
    exact hdone

/-- Writing the same value to output cell `n` extends the agreement to it. -/
theorem writeOut (h : AgreeUpTo n s t) {v w : F32} (hv : w = v) : AgreeUpTo (n + 1) (s.writeOut n v) (t.writeOut n w) := by
  subst hv
  refine ⟨?_, fun a ha => ?_, fun j hj => ?_⟩
  · rw [h.regs]; rfl
  · have haddr : t.outAddr n = s.outAddr n := h.same (State.outAddr · n) fun _ => rfl
    rw [State.writeOut_mem, State.writeOut_mem, haddr, readByte_writeWord, readByte_writeWord, h.bytes a ha]
  · by_cases hjn : j = n
    · rw [hjn, writeOut_readOut_same, writeOut_readOut_same]
    · rw [writeOut_readOut_other _ _ _ _ hjn, writeOut_readOut_other _ _ _ _ hjn]
      exact h.done j (by omega)

/-- Two runs that agree on the whole block complete with the same output region and the same registers. -/
theorem complete (h : AgreeUpTo s.cfgN s t) :
    Completes (Machine.complete s) fun u =>
      Completes (Machine.complete t) fun u' => u'.outCells = u.outCells ∧ u' = u.setMem u'.mem := by
  have hcfg : t.cfgN = s.cfgN := h.same State.cfgN fun _ => rfl
  refine ⟨_, rfl, _, rfl, ?_, congrArg (State.setStatus · statusOk) h.regs⟩
  rw [State.outCells, State.outCells, State.setStatus_cfgN, State.setStatus_cfgN, hcfg]
  exact List.map_congr_left fun j hj => h.done j (List.mem_range.mp hj)

end AgreeUpTo

/-- A loop body that sees no output cell its loop has not written. -/
structure OutputBlind (body : Nat → State → State) : Prop extends SampleBody body where
  blind : ∀ i s t, s.Placed → i < s.cfgN → AgreeUpTo i s t → AgreeUpTo (i + 1) (body i s) (body i t)

theorem OutputBlind.loop {body : Nat → State → State} (h : OutputBlind body) {s t : State} (hp : s.Placed)
    (h0 : AgreeUpTo 0 s t) (n : Nat) (hn : n ≤ s.cfgN) : AgreeUpTo n (forSamples body n s) (forSamples body n t) := by
  induction n with
  | zero => exact h0
  | succ n ih =>
    have heffect : Effect s (forSamples body n s) := h.toSampleBody.loop s n (by omega)
    exact h.blind n _ _ (heffect.placed hp) (by rw [heffect.cfgN]; omega) (ih (by omega))

/-! The loop bodies of the five effect operations are blind. -/

/-- The register updates of one iteration of `PSHIFT` do not depend on memory. -/
theorem pshiftRegisters_setMem (pf x : F32) (i : Nat) (s : State) (m : Memory) :
    pshiftCorrect x i (pshiftAccumulate pf i (s.setMem m)) = (pshiftCorrect x i (pshiftAccumulate pf i s)).setMem m := by
  rw [pshiftCorrect_eq, pshiftCorrect_eq]; rfl

theorem pshiftSample_blind (pf : F32) : OutputBlind (pshiftSample pf) where
  toSampleBody := pshiftSample_body pf
  blind i s t hp hi h := by
    have hregs : AgreeUpTo i (pshiftCorrect (s.readIn i) i (pshiftAccumulate pf i s))
        (pshiftCorrect (s.readIn i) i (pshiftAccumulate pf i t)) := by
      refine h.registers (by rw [pshiftCorrect_eq]; exact ⟨rfl, rfl, rfl⟩) ?_
      rw [← pshiftRegisters_setMem, ← h.regs]
    rw [pshiftSample, pshiftSample, h.readIn hp hi]
    exact hregs.writeOut (hregs.same (pshiftInterpolate (s.readIn i) i) fun _ => rfl)

theorem bassSample_blind (bf : F32) : OutputBlind (bassSample bf) where
  toSampleBody := bassSample_body bf
  blind i s t hp hi h := h.writeOut (by rw [h.draw, h.readIn hp hi])

/-- The filter bank does not depend on memory. -/
theorem foldl_biquad_setMem (i : Nat) (ks : List (Fin 7)) (v : F32) (s : State) (m : Memory) :
    ks.foldl (fun acc k => biquadStep i k acc) (v, s.setMem m) =
      ((ks.foldl (fun acc k => biquadStep i k acc) (v, s)).1,
        (ks.foldl (fun acc k => biquadStep i k acc) (v, s)).2.setMem m) := by
  induction ks generalizing v s with
  | nil => rfl
  | cons k ks ih => exact ih (biquadStep i k (v, s)).1 (biquadStep i k (v, s)).2

theorem bank_setMem (i : Nat) (v : F32) (s : State) (m : Memory) :
    bank i v (s.setMem m) = ((bank i v s).1, (bank i v s).2.setMem m) :=
  foldl_biquad_setMem i stageOrder v s m

theorem bank_mem_outBase_cfgN (i : Nat) (v : F32) (s : State) :
    (bank i v s).2.mem = s.mem ∧ (bank i v s).2.outBase = s.outBase ∧ (bank i v s).2.cfgN = s.cfgN := by
  rw [bank_state]
  exact ⟨State.setBq_mem _ _, State.setBq_outBase _ _, State.setBq_cfgN _ _⟩

theorem eq7Sample_blind : OutputBlind eq7Sample where
  toSampleBody := eq7Sample_body
  blind i s t hp hi h := by
    have hbank : bank i (s.readIn i) t = ((bank i (s.readIn i) s).1, (bank i (s.readIn i) s).2.setMem t.mem) := by
      rw [← bank_setMem, ← h.regs]
    have hregs : AgreeUpTo i (bank i (s.readIn i) s).2 (bank i (s.readIn i) t).2 :=
      h.registers (bank_mem_outBase_cfgN i _ s) (by rw [hbank])
    rw [eq7Sample, eq7Sample, h.readIn hp hi]
    exact hregs.writeOut (by rw [hbank])

/-- `LOFI` holds the cell the iteration before wrote, which both runs have written alike (spec/45_lofi.md R211). -/
theorem lofiSample_blind (levels dsf : F32) : OutputBlind (lofiSample levels dsf) where
  toSampleBody := lofiSample_body levels dsf
  blind i s t hp hi h := by
    rw [lofiSample_eq, lofiSample_eq]
    refine h.writeOut ?_
    have hfresh : lofiFresh dsf i t = lofiFresh dsf i s := by rw [lofiFresh, lofiFresh, h.draw]
    have hquantize : lofiQuantize levels (t.readIn i) i t = lofiQuantize levels (s.readIn i) i s := by
      rw [lofiQuantize, lofiQuantize, h.draw, h.readIn hp hi]
    rw [hfresh, hquantize]
    by_cases hzero : i = 0
    · rw [if_pos hzero, if_pos hzero]
    · rw [h.done (i - 1) (by omega)]

theorem copySample_blind : OutputBlind copySample where
  toSampleBody := copySample_body
  blind _ _ _ hp hi h := h.writeOut (h.readIn hp hi)

section
variable {s : State} {m : Memory} (hp : s.Placed)
  (hm : ∀ a, s.OutsideOutput a → Memory.readByte m a = Memory.readByte s.mem a)
include hp hm

/-- A blind loop over the whole block, from two memories that differ in the output region only. -/
theorem OutputBlind.block {body : Nat → State → State} (h : OutputBlind body) :
    AgreeUpTo (forSamples body s.cfgN s).cfgN (forSamples body s.cfgN s) (forSamples body s.cfgN (s.setMem m)) := by
  rw [(h.toSampleBody.loop s _ le_rfl).cfgN]
  exact h.loop hp ⟨rfl, hm, fun _ hj => absurd hj (Nat.not_lt_zero _)⟩ _ le_rfl

/-- A command that draws and runs a blind loop over the block. -/
theorem OutputBlind.completeDrawing {body : Nat → State → State} (h : OutputBlind body) :
    Completes (Machine.completeDrawing (forSamples body s.cfgN s)) fun t =>
      Completes (Machine.completeDrawing (forSamples body s.cfgN (s.setMem m))) fun t' =>
        t'.outCells = t.outCells ∧ t' = t.setMem t'.mem := by
  have hblock := h.block hp hm
  have hdraws : AgreeUpTo (forSamples body s.cfgN s).cfgN (forSamples body s.cfgN s).nextDraws
      (forSamples body s.cfgN (s.setMem m)).nextDraws :=
    hblock.registers ⟨rfl, rfl, rfl⟩ (congrArg State.nextDraws hblock.regs)
  exact hdraws.complete

end

/-- Settles O46: the loop of every effect operation is blind. -/
theorem outputIgnoresOldOutput : Obligations.OutputIgnoresOldOutput := by
  unfold Obligations.OutputIgnoresOldOutput
  intro i s m hp hgetin hgetout hgains hm
  cases i with
  | pshift pf => exact (pshiftSample_blind pf).completeDrawing hp hm
  | bass db => exact (bassSample_blind (bassFactor db s)).completeDrawing hp hm
  | eq7 gains =>
    rw [exec_eq7_seven (hgains gains rfl), exec_eq7_seven (hgains gains rfl)]
    exact eq7Sample_blind.completeDrawing hp hm
  | lofi bd dsf => exact (lofiSample_blind (lofiLevels bd s) dsf).completeDrawing hp hm
  | copy => exact (copySample_blind.block hp hm).complete
  | getin => exact absurd rfl hgetin
  | getout => exact absurd rfl hgetout

end Sys2Proof.Machine
end

section
/-! PROOFS. The encoding (spec/30_encoding.md): that the decoder and the encoder agree, which packets are illegal, and what a
step makes of a delivery and of one line of `CHAIN`. -/

namespace Sys2Proof

/-! ### Decoder and encoder (spec/30_encoding.md R101 to R104) -/

/-- Settles O2: the header announces exactly the operands, so the decoder takes them and leaves what follows. -/
theorem decodeOfEncode : Obligations.DecodeOfEncode := by
  unfold Obligations.DecodeOfEncode
  intro i rest hwf
  obtain ⟨hrsvd, hargc, hop⟩ := encode_header i hwf
  refine (decode_command _ i rest).mpr ⟨_, operandsOf i ++ rest, rfl, ?_, hrsvd, hop, ?_, ?_⟩
  · simp [hargc]
  · rw [hargc, List.take_left]
  · rw [hargc, List.drop_left]

/-- Settles O3: the operands are as many as the header announces, and the header is the one its fields make. -/
theorem encodeOfDecode : Obligations.EncodeOfDecode := by
  unfold Obligations.EncodeOfDecode
  intro ws i rest hd
  obtain ⟨h, tail, rfl, hlen, hrsvd, hop, hargs, rfl⟩ := (decode_command ws i rest).mp hd
  have hcount : (operandsOf i).length = headerArgc h := by rw [hargs, List.length_take_of_le hlen]
  refine ⟨(wellFormed_iff i).mpr (hcount ▸ headerArgc_le h), ?_⟩
  rw [encode, hcount, ← hop, header_of_fields h hrsvd, hargs, List.cons_append, List.take_append_drop]

/-! ### One packet, whatever its header (spec/30_encoding.md R102, R106) -/

theorem decode_short {h : Word} {tail : List Word} (hlen : tail.length < headerArgc h) :
    decode (h :: tail) = .truncated := if_pos hlen

/-- With its operand words present a header is a command's or illegal, and the packet is taken whole either way. -/
theorem decode_present {h : Word} {tail : List Word} (hlen : headerArgc h ≤ tail.length) :
    (∃ i, decode (h :: tail) = .command i ((h :: tail).drop (packetLength h))) ∨
      (∃ why, decode (h :: tail) = .illegal why h ((h :: tail).drop (packetLength h))) := by
  have hdrop : (h :: tail).drop (packetLength h) = tail.drop (headerArgc h) := by
    rw [packetLength, Nat.add_comm, List.drop_succ_cons]
  rw [decode_cons h tail hlen, hdrop]
  split
  · exact .inr ⟨_, rfl⟩
  · split
    · next i _ => exact .inl ⟨i, rfl⟩
    · next why _ => exact .inr ⟨why, rfl⟩

/-- Settles O5, by whether the operand words are present. -/
theorem decoderConsumesOnePacket : Obligations.DecoderConsumesOnePacket := by
  unfold Obligations.DecoderConsumesOnePacket
  intro h tail
  have hpresent : packetLength h ≤ (h :: tail).length ↔ headerArgc h ≤ tail.length := by
    rw [packetLength, List.length_cons]; omega
  split
  · next hlen => exact decode_present (hpresent.mp hlen)
  · next hlen => exact decode_short (Nat.lt_of_not_le (mt hpresent.mpr hlen))

/-- What stays of an illegal packet's words is what follows its `1 + argc`. -/
theorem decode_illegal_rest {ws : List Word} {why : IllegalReason} {h : Word} {rest : List Word}
    (hd : decode ws = .illegal why h rest) : rest = ws.drop (packetLength h) := by
  cases ws with
  | nil => cases hd
  | cons h' tail =>
    by_cases hlen : headerArgc h' ≤ tail.length
    · obtain ⟨i, hi⟩ | ⟨why', hi⟩ := decode_present hlen
      · cases hd.symm.trans hi
      · cases hd.symm.trans hi; rfl
    · cases hd.symm.trans (decode_short (Nat.lt_of_not_le hlen))

/-! ### The rows of the opcode map (spec/30_encoding.md R104, R110) -/

/-- The operand counts the opcode map gives each opcode; a reserved opcode has none. -/
def LegalCount (op argc : Nat) : Prop :=
  ((op = 0x01 ∨ op = 0x02) ∧ argc = 1) ∨ op = 0x03 ∨ (op = 0x04 ∧ argc = 2) ∨
    ((op = 0x05 ∨ op = 0x06 ∨ op = 0x07) ∧ argc = 0)

theorem exists_instr_iff (op : Nat) (args : List Word) :
    (∃ i, opcodeOf i = op ∧ operandsOf i = args) ↔ LegalCount op args.length := by
  constructor
  · rintro ⟨i, rfl, rfl⟩
    cases i <;> simp [LegalCount, opcodeOf, operandsOf]
  · rintro (⟨rfl | rfl, hone⟩ | rfl | ⟨rfl, htwo⟩ | ⟨rfl | rfl | rfl, hnone⟩)
    · obtain ⟨pf, rfl⟩ := List.length_eq_one_iff.mp hone
      exact ⟨.pshift pf, rfl, rfl⟩
    · obtain ⟨db, rfl⟩ := List.length_eq_one_iff.mp hone
      exact ⟨.bass db, rfl, rfl⟩
    · exact ⟨.eq7 args, rfl, rfl⟩
    · obtain ⟨bd, dsf, rfl⟩ := List.length_eq_two.mp htwo
      exact ⟨.lofi bd dsf, rfl, rfl⟩
    · exact ⟨.copy, rfl, (List.eq_nil_of_length_eq_zero hnone).symm⟩
    · exact ⟨.getin, rfl, (List.eq_nil_of_length_eq_zero hnone).symm⟩
    · exact ⟨.getout, rfl, (List.eq_nil_of_length_eq_zero hnone).symm⟩

section
variable {h : Word} {tail : List Word} (hlen : headerArgc h ≤ tail.length)
include hlen

/-- Which headers decode to a command of opcode `op`. -/
theorem decode_opcode_iff (op : Nat) :
    (∃ i rest, decode (h :: tail) = .command i rest ∧ opcodeOf i = op) ↔
      headerRsvd h = 0 ∧ headerOp h = op ∧ LegalCount op (headerArgc h) := by
  have hrow := exists_instr_iff op (tail.take (headerArgc h))
  rw [List.length_take_of_le hlen] at hrow
  rw [← hrow]
  constructor
  · rintro ⟨i, rest, hd, hi⟩
    obtain ⟨_, _, hws, -, hrsvd, hop, hargs, -⟩ := (decode_command _ i rest).mp hd
    cases hws
    exact ⟨hrsvd, hop.trans hi, i, hi, hargs⟩
  · rintro ⟨hrsvd, hop, i, hi, hargs⟩
    exact ⟨i, _, (decode_command _ i _).mpr ⟨h, tail, rfl, hlen, hrsvd, hop.trans hi.symm, hargs, rfl⟩, hi⟩

/-- Which headers are illegal: those that decode to no command. -/
theorem decode_illegal_iff :
    (∃ why rest, decode (h :: tail) = .illegal why h rest) ↔
      ¬ (headerRsvd h = 0 ∧ LegalCount (headerOp h) (headerArgc h)) := by
  constructor
  · rintro ⟨why, rest, hd⟩ ⟨hrsvd, hcount⟩
    obtain ⟨i, rest', hi, -⟩ := (decode_opcode_iff hlen _).mpr ⟨hrsvd, rfl, hcount⟩
    cases hd.symm.trans hi
  · intro hno
    obtain ⟨i, hd⟩ | ⟨why, hd⟩ := decode_present hlen
    · obtain ⟨hrsvd, hop, hcount⟩ := (decode_opcode_iff hlen (opcodeOf i)).mp ⟨i, _, hd, rfl⟩
      exact absurd ⟨hrsvd, hop ▸ hcount⟩ hno
    · exact ⟨why, _, hd⟩

end

/-- Settles O4: the clauses of R111 are the complement of the rows of the opcode map. -/
theorem illegalPacketsExactly : Obligations.IllegalPacketsExactly := by
  unfold Obligations.IllegalPacketsExactly
  intro h tail hlen
  rw [decode_illegal_iff hlen, LegalCount]
  omega

/-- A word is the header with the given fields exactly when it has them and `rsvd` = 0. -/
theorem eq_header_iff {h : Word} {argc op : Nat} (hargc : argc ≤ argcMax) (hop : op < 256) :
    h = header argc op ↔ headerRsvd h = 0 ∧ headerArgc h = argc ∧ headerOp h = op := by
  constructor
  · rintro rfl
    exact header_fields argc op hargc hop
  · rintro ⟨hrsvd, rfl, rfl⟩
    exact (header_of_fields h hrsvd).symm

theorem field_and (a b : Word) (hi lo : Nat) : Word.field (a &&& b) hi lo = Word.field a hi lo &&& Word.field b hi lo := by
  rw [Word.field, BitVec.toNat_and, Nat.and_div_two_pow, Nat.and_mod_two_pow, Word.field, Word.field]

theorem field_lt (w : Word) (hi lo : Nat) : Word.field w hi lo < 2 ^ (hi + 1 - lo) := Nat.mod_lt _ (Nat.two_pow_pos _)

/-- The mask of `EQ7` leaves `rsvd` and `op` and clears `argc` (spec/30_encoding.md R104). -/
theorem and_eq7Mask_iff (h : Word) : h &&& 0xFFFF00FF = header 0 0x03 ↔ headerRsvd h = 0 ∧ headerOp h = 0x03 := by
  have hrsvd : headerRsvd (h &&& 0xFFFF00FF) = headerRsvd h :=
    (field_and h _ 31 16).trans (Nat.and_two_pow_sub_one_of_lt_two_pow (n := 16) (field_lt h 31 16))
  have hargc : headerArgc (h &&& 0xFFFF00FF) = 0 := (field_and h _ 15 8).trans (Nat.and_zero _)
  have hop : headerOp (h &&& 0xFFFF00FF) = headerOp h :=
    (field_and h _ 7 0).trans (Nat.and_two_pow_sub_one_of_lt_two_pow (n := 8) (field_lt h 7 0))
  rw [eq_header_iff (by decide) (by decide), hrsvd, hargc, hop]
  simp

/-- A row with one operand count is selected by the whole header. -/
theorem decode_fixedCount_iff {h : Word} {tail : List Word} (hlen : headerArgc h ≤ tail.length) {argc op : Nat}
    (hargc : argc ≤ argcMax) (hop : op < 256) (hcount : ∀ n, LegalCount op n ↔ n = argc) :
    (∃ i rest, decode (h :: tail) = .command i rest ∧ opcodeOf i = op) ↔ h &&& 0xFFFFFFFF = header argc op := by
  have hmask : h &&& 0xFFFFFFFF = h := BitVec.and_allOnes
  rw [decode_opcode_iff hlen, hmask, eq_header_iff hargc hop, hcount, and_comm (a := headerOp h = op)]

/-- Settles O6: the mask of a fixed-count row leaves the whole header, that of `EQ7` all but `argc`. -/
theorem headersSelectRows : Obligations.HeadersSelectRows := by
  unfold Obligations.HeadersSelectRows
  intro h tail hlen row hrow
  simp only [List.mem_cons, List.not_mem_nil, or_false] at hrow
  obtain rfl | rfl | rfl | rfl | rfl | rfl | rfl := hrow
  · exact decode_fixedCount_iff hlen (argc := 1) (op := 0x01) (by decide) (by decide) (by simp [LegalCount])
  · exact decode_fixedCount_iff hlen (argc := 1) (op := 0x02) (by decide) (by decide) (by simp [LegalCount])
  · have hcount : LegalCount 0x03 (headerArgc h) := .inr (.inl rfl)
    rw [decode_opcode_iff hlen, and_iff_left hcount]
    exact (and_eq7Mask_iff h).symm
  · exact decode_fixedCount_iff hlen (argc := 2) (op := 0x04) (by decide) (by decide) (by simp [LegalCount])
  · exact decode_fixedCount_iff hlen (argc := 0) (op := 0x05) (by decide) (by decide) (by simp [LegalCount])
  · exact decode_fixedCount_iff hlen (argc := 0) (op := 0x06) (by decide) (by decide) (by simp [LegalCount])
  · exact decode_fixedCount_iff hlen (argc := 0) (op := 0x07) (by decide) (by decide) (by simp [LegalCount])

end Sys2Proof

namespace Sys2Proof.Machine

/-- Settles O1: each packet is evaluated; the six-gain `EQ7` raises `InvalidArgument` by its operand count. -/
theorem specExamplePackets : Obligations.SpecExamplePackets := by
  unfold Obligations.SpecExamplePackets
  refine ⟨by decide, by decide, by decide, by decide, by decide, by decide, fun s => ?_, by decide, by decide, by decide,
    by decide, by decide, by decide, by decide, by decide⟩
  exact exec_eq7_other (by decide)

/-! ### A step that has a delivery to make (spec/30_encoding.md R100, R106, R112) -/

theorem step_packet {s : State} {ws : List Word} {moves : List HostMove} (hl : s.live = .alive)
    (hm : s.inbox = .packet ws :: moves) : step s = deliver exec ws (s.setInbox moves) := by
  rw [step, hm]
  exact if_pos hl

theorem step_command {s : State} {ws : List Word} {moves : List HostMove} {i : Instr} {rest : List Word}
    (hl : s.live = .alive) (hm : s.inbox = .packet ws :: moves) (hd : decode ws = .command i rest) :
    step s = exec i ((s.setInbox moves).pushWords rest) := by
  rw [step_packet hl hm, deliver, hd]

theorem step_illegal {s : State} {ws : List Word} {moves : List HostMove} {why : IllegalReason} {h : Word}
    {rest : List Word} (hl : s.live = .alive) (hm : s.inbox = .packet ws :: moves)
    (hd : decode ws = .illegal why h rest) :
    step s = .next (((s.setInbox moves).pushWords rest).setStatus statusIllegalCommand) := by
  rw [step_packet hl hm, deliver, hd]
  rfl

/-- The packet of a table word holds exactly the operand words its header announces, so none is left. -/
theorem decode_tablePacket {nbits w : Nat} {i : Instr} (h : decodeTableWord nbits w = some i) :
    decode (tablePacket nbits w) = .command i [] := by
  unfold decodeTableWord at h
  split at h
  · next j rest hd =>
    cases h
    obtain ⟨head, tail, hws, -, -, -, -, rfl⟩ := (decode_command _ i rest).mp hd
    cases hws
    rw [hd, List.drop_of_length_le (by simp)]
  · cases h
  · cases h

/-- Settles O7: both clauses are the step of a delivery that decodes to a command. -/
theorem stepRunsTheDecodedCommand : Obligations.StepRunsTheDecodedCommand := by
  unfold Obligations.StepRunsTheDecodedCommand
  exact ⟨fun s ws moves i rest hl hm hd => step_command hl hm hd,
    fun s nbits w i h => step_command (s := s.withFetchWord nbits w) rfl rfl (decode_tablePacket h)⟩

/-- Settles O8: the packet is consumed whole, and raising writes `STATUS` alone. -/
theorem illegalPacketSetsStatusOnly : Obligations.IllegalPacketSetsStatusOnly := by
  unfold Obligations.IllegalPacketSetsStatusOnly
  intro s ws moves why h rest hl hm hd
  refine ⟨decode_illegal_rest hd, (step_illegal hl hm hd).trans ?_⟩
  rw [pushWords_eq]
  simp only [List.isEmpty_iff]
  rfl

/-! ### One step of `CHAIN` (spec/30_encoding.md R119) -/

/-- Settles O21: the step is a read of one cell and a write of what was read to the other. -/
theorem chainMovesOutputToInput : Obligations.ChainMovesOutputToInput := by
  unfold Obligations.ChainMovesOutputToInput
  intro s i src dst moves hl hi hsrc hdst hm
  have hsrcOk := (accessOk_iff_cell s src 4).mpr ⟨rfl, i, hi, .inr hsrc⟩
  have hdstOk := (accessOk_iff_cell s dst 4).mpr ⟨rfl, i, hi, .inl hdst⟩
  have hstep := (step_forward hl hm).trans (if_pos (by rw [hsrcOk, hdstOk]; rfl))
  rw [hsrc, hdst] at hstep
  exact ⟨_, hstep, rfl, readWord_writeWord_same _ _ _, fun a ha => readByte_writeWord_outside _ _ a _ ha⟩

end Sys2Proof.Machine
end

section
/-! PROOFS. Binary32 rounding (spec/40_numerics.md R132, R134): the two patterns around an exact magnitude, which of
them the rounding takes, and that the four operations round the exact result once. -/

namespace Sys2Proof.Machine

/-! ### The two patterns around an exact magnitude -/

/-- The magnitude pattern of `n / d` units of 2^-149 rounded down, with no bound above. -/
def floorMag (n d : Nat) : Nat := ulpShift n d * 8388608 + n / (d * 2 ^ ulpShift n d)

/-- The significand `f` in steps of 2^e units: below 2^24, and normal unless `e` is 0. -/
theorem unitsOfMag_significand {e f : Nat} (h : e = 0 ∨ 8388608 ≤ f) (hf : f ≤ 16777216) :
    unitsOfMag (e * 8388608 + f) = f * 2 ^ e := by
  rcases Nat.lt_or_ge f 8388608 with hsub | hnorm
  · obtain rfl : e = 0 := by omega
    rw [Nat.zero_mul, Nat.zero_add, unitsOfMag_sub f hsub, pow_zero, Nat.mul_one]
  · rcases Nat.lt_or_ge f 16777216 with hlt | hge
    · rw [show e * 8388608 + f = (e + 1) * 8388608 + (f - 8388608) by omega, unitsOfMag_norm e _ (by omega),
        show 8388608 + (f - 8388608) = f by omega]
    · obtain rfl : f = 16777216 := by omega
      rw [show e * 8388608 + 16777216 = (e + 1 + 1) * 8388608 + 0 by omega, unitsOfMag_norm (e + 1) 0 (by omega),
        pow_succ]
      omega

/-- The quotient at the rounding exponent has at most 24 bits, and exactly 24 unless the exponent is that of the
subnormals (spec/40_numerics.md R131). -/
theorem significand_bounds (n d : Nat) :
    (ulpShift n d = 0 ∨ 8388608 ≤ n / (d * 2 ^ ulpShift n d)) ∧ n / (d * 2 ^ ulpShift n d) < 16777216 := by
  rw [← Nat.div_div_eq_div_mul]
  unfold ulpShift
  generalize n / d = q
  have hlt : q < 2 ^ (q.log2 + 1) := Nat.lt_log2_self
  rcases Nat.lt_or_ge q.log2 24 with hsmall | hlarge
  · have hpow : 2 ^ (q.log2 + 1) ≤ 2 ^ 24 := Nat.pow_le_pow_right (by omega) (by omega)
    have hzero : q.log2 - 23 = 0 := by omega
    rw [hzero, pow_zero, Nat.div_one]
    exact ⟨.inl rfl, by omega⟩
  · have hlow : 2 ^ q.log2 ≤ q := Nat.log2_self_le (by rintro rfl; simp at hlarge)
    obtain ⟨e, he⟩ := Nat.exists_eq_add_of_le (show 23 ≤ q.log2 by omega)
    rw [he, Nat.add_sub_cancel_left]
    have hpos : 0 < 2 ^ e := by positivity
    refine ⟨.inr ((Nat.le_div_iff_mul_le hpos).mpr ?_), (Nat.div_lt_iff_lt_mul hpos).mpr ?_⟩
    · rw [he, pow_add] at hlow; exact hlow
    · rw [he, show 23 + e + 1 = 24 + e by omega, pow_add] at hlt; exact hlt

theorem floorMag_units (n d : Nat) :
    unitsOfMag (floorMag n d) = n / (d * 2 ^ ulpShift n d) * 2 ^ ulpShift n d := by
  obtain ⟨hlow, hhigh⟩ := significand_bounds n d
  exact unitsOfMag_significand hlow hhigh.le

theorem floorMag_succ_units (n d : Nat) :
    unitsOfMag (floorMag n d + 1) = (n / (d * 2 ^ ulpShift n d) + 1) * 2 ^ ulpShift n d := by
  obtain ⟨hlow, hhigh⟩ := significand_bounds n d
  rw [floorMag, Nat.add_assoc]
  exact unitsOfMag_significand (hlow.imp_right Nat.le_succ_of_le) hhigh

/-- The exact magnitude lies between the two patterns. -/
theorem floorMag_bounds (n : Nat) {d : Nat} (hd : 0 < d) :
    unitsOfMag (floorMag n d) * d ≤ n ∧ n < unitsOfMag (floorMag n d + 1) * d := by
  rw [floorMag_units, floorMag_succ_units]
  generalize ulpShift n d = e
  rw [Nat.mul_assoc, Nat.mul_comm (2 ^ e) d, Nat.mul_assoc, Nat.mul_comm (2 ^ e) d]
  exact ⟨Nat.div_mul_le_self _ _, Nat.lt_mul_of_div_lt (Nat.lt_succ_self _) (by positivity)⟩

/-- Twice the midpoint of a pattern and the next, in units of 2^-149. -/
def twiceMidpoint (m : Nat) : Nat := unitsOfMag m + unitsOfMag (m + 1)

/-- `roundMag` takes the pattern below at or under the midpoint, the one above at or past it, and at a tie the even
one. -/
theorem roundMag_cases (n d : Nat) :
    (roundMag n d = min infMag (floorMag n d) ∧ 2 * n ≤ twiceMidpoint (floorMag n d) * d ∧
        (2 * n = twiceMidpoint (floorMag n d) * d → floorMag n d % 2 = 0)) ∨
      (roundMag n d = min infMag (floorMag n d + 1) ∧ twiceMidpoint (floorMag n d) * d ≤ 2 * n ∧
        (2 * n = twiceMidpoint (floorMag n d) * d → floorMag n d % 2 = 1)) := by
  have hround : roundMag n d = min infMag (ulpShift n d * 8388608 + quotNearestEven n (d * 2 ^ ulpShift n d)) := rfl
  rw [twiceMidpoint, floorMag_units, floorMag_succ_units, hround, floorMag, Nat.add_assoc]
  generalize ulpShift n d = e
  have hdiv := Nat.div_add_mod' n (d * 2 ^ e)
  unfold quotNearestEven
  generalize n % (d * 2 ^ e) = r at *
  generalize n / (d * 2 ^ e) = f at *
  rw [show (f * 2 ^ e + (f + 1) * 2 ^ e) * d = 2 * (f * (d * 2 ^ e)) + d * 2 ^ e by ring]
  generalize f * (d * 2 ^ e) = x at *
  generalize d * 2 ^ e = D at *
  split
  · exact .inl ⟨rfl, by omega, by omega⟩
  · split
    · exact .inr ⟨rfl, by omega, by omega⟩
    · split
      · exact .inl ⟨rfl, by omega, by omega⟩
      · exact .inr ⟨rfl, by omega, by omega⟩

/-! ### The rounding is to nearest, ties to even -/

theorem unitsOfMag_mul_mono {i j : Nat} (d : Nat) (h : i ≤ j) : unitsOfMag i * d ≤ unitsOfMag j * d :=
  Nat.mul_le_mul_right d ((unitsOfMag_le_iff i j).mpr h)

theorem unitsOfMag_mul_strictMono {d i j : Nat} (hd : 0 < d) (h : i < j) : unitsOfMag i * d < unitsOfMag j * d :=
  Nat.mul_lt_mul_of_pos_right ((unitsOfMag_lt_iff i j).mpr h) hd

/-- Of two neighbouring patterns the one taken is strictly nearer than every other, or as near and even. -/
theorem roundMag_nearest {n d m : Nat} (hd : 0 < d) (hfin : roundMag n d < infMag) (hm : m ≠ roundMag n d) :
    ((unitsOfMag (roundMag n d) * d : Int) - n).natAbs < ((unitsOfMag m * d : Int) - n).natAbs ∨
      (((unitsOfMag (roundMag n d) * d : Int) - n).natAbs = ((unitsOfMag m * d : Int) - n).natAbs ∧
        roundMag n d % 2 = 0) := by
  obtain ⟨hlow, hhigh⟩ := floorMag_bounds n hd
  have hcase := roundMag_cases n d
  generalize floorMag n d = k at *
  rw [twiceMidpoint, Nat.add_mul] at hcase
  have hmul : ∀ i : Nat, ((unitsOfMag i : Int) * d) = ((unitsOfMag i * d : Nat) : Int) := fun i => by push_cast; rfl
  rw [hmul, hmul]
  obtain ⟨hr, hmid⟩ | ⟨hr, hmid⟩ := hcase
  · have hrk : roundMag n d = k := by omega
    rw [hrk] at hm ⊢
    rcases Nat.lt_or_gt_of_ne hm with h | h
    · have hbelow := unitsOfMag_mul_strictMono hd h
      omega
    · have habove := unitsOfMag_mul_mono d (show k + 1 ≤ m from h)
      omega
  · have hrk : roundMag n d = k + 1 := by omega
    rw [hrk] at hm ⊢
    rcases Nat.lt_or_gt_of_ne hm with h | h
    · have hbelow := unitsOfMag_mul_mono d (Nat.le_of_lt_succ h)
      omega
    · have habove := unitsOfMag_mul_strictMono hd h
      omega

/-- Infinity is given from half a unit in the last place above the largest finite value on: that is the midpoint of the
largest finite pattern, which is odd, and of infinity's. -/
theorem roundMag_eq_infMag_iff (n : Nat) {d : Nat} (hd : 0 < d) :
    roundMag n d = infMag ↔ 33554431 * 2 ^ 252 * d ≤ n := by
  obtain ⟨hlow, hhigh⟩ := floorMag_bounds n hd
  have hcase := roundMag_cases n d
  generalize floorMag n d = k at *
  have hmid : twiceMidpoint maxFiniteMag * d = 2 * (33554431 * 2 ^ 252 * d) := by
    rw [show twiceMidpoint maxFiniteMag = 2 * (33554431 * 2 ^ 252) by decide, Nat.mul_assoc]
  have hmax : infMag = maxFiniteMag + 1 := rfl
  have hodd : maxFiniteMag % 2 = 1 := by decide
  generalize 33554431 * 2 ^ 252 * d = t at *
  rw [twiceMidpoint, Nat.add_mul] at hcase hmid
  have hlt := unitsOfMag_mul_strictMono hd (Nat.lt_add_one maxFiniteMag)
  rcases Nat.lt_trichotomy k maxFiniteMag with h | rfl | h
  · have hbelow := unitsOfMag_mul_mono d (show k + 1 ≤ maxFiniteMag from h)
    omega
  · omega
  · have habove := unitsOfMag_mul_mono d (show maxFiniteMag + 1 ≤ k from h)
    omega

/-- Settles O50: the pattern taken is the nearer of the two neighbours of the exact magnitude. -/
theorem roundingIsNearestTiesToEven : Obligations.RoundingIsNearestTiesToEven := by
  unfold Obligations.RoundingIsNearestTiesToEven
  exact fun n d hd => ⟨fun _ _ hfin hm => roundMag_nearest hd hfin hm, roundMag_eq_infMag_iff n hd⟩

/-! ### The four operations round the exact result once -/

theorem F32.toUnits_natAbs (a : F32) : (F32.toUnits a).natAbs = F32.units a := by
  rw [F32.toUnits]; split <;> simp

theorem toUnits_eq_zero (a : F32) : F32.toUnits a = 0 ↔ F32.units a = 0 := by
  rw [← F32.toUnits_natAbs, Int.natAbs_eq_zero]

theorem units_pos {b : F32} (h : F32.isZero b = false) : 0 < F32.units b :=
  Nat.pos_of_ne_zero fun h0 => by simp [(units_eq_zero b).mp h0] at h

theorem units_packF32 (b : Bool) {m : Nat} (hm : m ≤ infMag) : F32.units (packF32 b m) = unitsOfMag m := by
  rw [F32.units, packF32_mag b m (lt_of_le_of_lt hm (by decide))]

/-- A pattern with the sign of the exact result is as far from it as its magnitude is from the exact magnitude. -/
theorem distance_of_sign {r : F32} {n : Int} (d : Nat) (h : n ≠ 0 → F32.neg r = decide (n < 0)) :
    Reference.distance r n d = ((F32.units r * d : Int) - n.natAbs).natAbs := by
  rw [Reference.distance, F32.toUnits]
  rcases Int.lt_trichotomy n 0 with hn | rfl | hn
  · rw [h hn.ne, decide_eq_true hn, if_pos rfl, Int.neg_mul]; omega
  · split
    · rw [Int.neg_mul]; omega
    · omega
  · rw [h hn.ne', decide_eq_false hn.not_gt, if_neg (by decide)]; omega

/-- A pattern with the other sign lies beyond zero. -/
theorem distance_of_other_sign {r : F32} {n : Int} (d : Nat) (h : F32.neg r = !decide (n < 0)) :
    Reference.distance r n d = F32.units r * d + n.natAbs := by
  have hpos : (0 : Int) ≤ F32.units r * d := by positivity
  have hcast : ((F32.units r * d : Nat) : Int) = F32.units r * d := by push_cast; rfl
  rw [Reference.distance, F32.toUnits, h]
  rcases lt_or_ge n 0 with hn | hn
  · rw [decide_eq_true hn, if_neg (by decide)]; omega
  · rw [decide_eq_false hn.not_gt, if_pos (by decide), Int.neg_mul]; omega

/-- No pattern is nearer than its magnitude is to the exact magnitude. -/
theorem le_distance (x : F32) (n : Int) (d : Nat) :
    ((F32.units x * d : Int) - n.natAbs).natAbs ≤ Reference.distance x n d := by
  have hpos : (0 : Int) ≤ F32.units x * d := by positivity
  rw [Reference.distance, F32.toUnits]
  split
  · rw [Int.neg_mul]; omega
  · omega

/-- The rounded magnitude with the sign of the exact result is the exact result rounded once. -/
theorem isRounded_packF32 {neg zeroNeg : Bool} {n : Int} {d : Nat} (hd : 0 < d)
    (hsign : neg = if n = 0 then zeroNeg else decide (n < 0)) :
    Reference.IsRounded (packF32 neg (roundMag n.natAbs d)) zeroNeg n d := by
  have hmag := packF32_mag neg _ (roundMag_lt n.natAbs d)
  have hneg := packF32_neg neg _ (roundMag_lt n.natAbs d)
  have hunits := units_packF32 neg (roundMag_le n.natAbs d)
  refine ⟨?_, ?_, fun hfin x hx hne => ?_, hneg.trans hsign, hmag⟩
  · rw [F32.isNaN, hmag]
    exact decide_eq_false (roundMag_le _ _).not_gt
  · rw [F32.isInf, hmag, decide_eq_true_eq]
    exact roundMag_eq_infMag_iff _ hd
  · rw [F32.isFinite, hmag, decide_eq_true_eq] at hfin
    have hr := distance_of_sign (r := packF32 neg (roundMag n.natAbs d)) (n := n) d fun hn => by
      rw [hneg, hsign, if_neg hn]
    rw [hr, hmag, hunits]
    by_cases hm : F32.mag x = roundMag n.natAbs d
    · have hux : F32.units x = unitsOfMag (roundMag n.natAbs d) := by rw [F32.units, hm]
      have hu : unitsOfMag (roundMag n.natAbs d) ≠ 0 := fun h0 =>
        hne (((toUnits_eq_zero x).mpr (hux.trans h0)).trans ((toUnits_eq_zero _).mpr (hunits.trans h0)).symm)
      have hn : n ≠ 0 := by
        rintro rfl
        exact hu (by rw [Int.natAbs_zero, roundMag_zero d hd, unitsOfMag_zero])
      have hother : F32.neg x = !decide (n < 0) :=
        Bool.eq_not.mpr fun hsame => hne (congrArg F32.toUnits (F32.ext_sign_mag x _
          (by rw [hsame, hneg, hsign, if_neg hn]) (hm.trans hmag.symm)))
      have hpos := Nat.mul_pos (Nat.pos_of_ne_zero hu) hd
      rw [distance_of_other_sign d hother, hux]
      omega
    · have hnear := roundMag_nearest hd hfin hm
      have hle := le_distance x n d
      rw [F32.units] at hle
      omega

theorem roundUnits_eq (zeroNeg : Bool) (v : Int) :
    roundUnits zeroNeg v = packF32 (if v = 0 then zeroNeg else decide (v < 0)) (roundMag v.natAbs 1) := by
  rw [roundUnits]
  split
  · next hv => rw [hv, Int.natAbs_zero, roundMag_zero 1 Nat.one_pos]
  · rfl

theorem isRounded_roundUnits (zeroNeg : Bool) (v : Int) : Reference.IsRounded (roundUnits zeroNeg v) zeroNeg v 1 := by
  rw [roundUnits_eq]
  exact isRounded_packF32 Nat.one_pos rfl

/-- The product or quotient of magnitude `m / d` and sign `neg`. -/
theorem isRounded_signed (neg : Bool) (m : Nat) {d : Nat} (hd : 0 < d) :
    Reference.IsRounded (packF32 neg (roundMag m d)) neg (if neg then -(m : Int) else m) d := by
  have habs : (if neg then -(m : Int) else m).natAbs = m := by split <;> simp
  have hround := isRounded_packF32 (neg := neg) (zeroNeg := neg) (n := if neg then -(m : Int) else m) hd
  rw [habs] at hround
  refine hround ?_
  cases neg
  · simp
  · simp [Nat.pos_iff_ne_zero]

theorem toUnits_mul (a b : F32) :
    F32.toUnits a * F32.toUnits b =
      if F32.neg a != F32.neg b then -((F32.units a * F32.units b : Nat) : Int)
      else (F32.units a * F32.units b : Nat) := by
  rw [F32.toUnits, F32.toUnits]
  cases F32.neg a <;> cases F32.neg b <;> simp

theorem toUnits_scaled (a b : F32) :
    (if F32.neg b then -(F32.toUnits a * 2 ^ 149) else F32.toUnits a * 2 ^ 149) =
      if F32.neg a != F32.neg b then -((F32.units a * 2 ^ 149 : Nat) : Int) else (F32.units a * 2 ^ 149 : Nat) := by
  rw [F32.toUnits]
  cases F32.neg a <;> cases F32.neg b <;> simp

/-- Settles O51: each operation on finite operands is one rounding of the exact result. -/
theorem arithmeticIsCorrectlyRounded : Obligations.ArithmeticIsCorrectlyRounded := by
  unfold Obligations.ArithmeticIsCorrectlyRounded
  intro d a b ha hb
  rw [fadd_finite d a b ha hb, fsub_finite d a b ha hb, fmul_finite d a b ha hb]
  refine ⟨isRounded_roundUnits _ _, isRounded_roundUnits _ _, ?_, fun hz => ?_⟩
  · rw [toUnits_mul]
    exact isRounded_signed _ _ (by positivity)
  · rw [fdiv_finite d a b ha hb hz, toUnits_scaled]
    exact isRounded_signed _ _ (units_pos hz)

end Sys2Proof.Machine
end

section
/-! PROOFS. Binary32 values (spec/40_numerics.md): their classes, the comparisons (R140), and the three exact
conversions `ROUND` (R142), `FMOD` (R144) and `I2F` (R150). -/

namespace Sys2Proof.Machine

/-! ### The classes of a value -/

theorem isNaN_packF32 (b : Bool) {m : Nat} (hm : m ≤ infMag) : F32.isNaN (packF32 b m) = false := by
  rw [F32.isNaN, packF32_mag b m (lt_of_le_of_lt hm (by decide))]
  exact decide_eq_false hm.not_gt

theorem isFinite_packF32 (b : Bool) {m : Nat} (hm : m < infMag) : F32.isFinite (packF32 b m) = true := by
  rw [F32.isFinite, packF32_mag b m (hm.trans (by decide))]
  exact decide_eq_true hm

theorem F32.isInf_iff (a : F32) : F32.isInf a = true ↔ F32.mag a = infMag := decide_eq_true_iff

theorem F32.isZero_iff (a : F32) : F32.isZero a = true ↔ F32.mag a = 0 := decide_eq_true_iff

theorem not_nan_of_inf {a : F32} (h : F32.isInf a = true) : F32.isNaN a = false :=
  decide_eq_false (by rw [(F32.isInf_iff a).mp h]; exact lt_irrefl _)

theorem not_zero_of_inf {a : F32} (h : F32.isInf a = true) : F32.isZero a = false :=
  decide_eq_false (by rw [(F32.isInf_iff a).mp h]; decide)

theorem not_nan_of_finite {a : F32} (h : F32.isFinite a = true) : F32.isNaN a = false := ((F32.isFinite_iff a).mp h).1

theorem not_inf_of_finite {a : F32} (h : F32.isFinite a = true) : F32.isInf a = false := ((F32.isFinite_iff a).mp h).2

theorem finite_of_zero {a : F32} (h : F32.isZero a = true) : F32.isFinite a = true :=
  decide_eq_true (by rw [(F32.isZero_iff a).mp h]; decide)

theorem fneg_isNaN (a : F32) : F32.isNaN (fneg a) = F32.isNaN a := by rw [F32.isNaN, F32.isNaN, fneg_mag]

theorem fneg_isInf (a : F32) : F32.isInf (fneg a) = F32.isInf a := by rw [F32.isInf, F32.isInf, fneg_mag]

theorem fneg_isZero (a : F32) : F32.isZero (fneg a) = F32.isZero a := by rw [F32.isZero, F32.isZero, fneg_mag]

/-! ### Comparisons (spec/40_numerics.md R140) -/

/-- `F32.key` orders the values as their numbers of units do. -/
theorem toUnits_le_iff (a b : F32) : F32.toUnits a ≤ F32.toUnits b ↔ F32.key a ≤ F32.key b := by
  have hab := unitsOfMag_le_iff (F32.mag a) (F32.mag b)
  have hba := unitsOfMag_le_iff (F32.mag b) (F32.mag a)
  have ha := unitsOfMag_inj (F32.mag a) 0
  have hb := unitsOfMag_inj (F32.mag b) 0
  rw [unitsOfMag_zero] at ha hb
  simp only [F32.toUnits, F32.key, F32.units]
  cases F32.neg a <;> cases F32.neg b <;> simp only [Bool.false_eq_true, if_true, if_false] <;> omega

section
variable {a b : F32} (ha : F32.isNaN a = false) (hb : F32.isNaN b = false)
include ha hb

theorem fge_of_not_nan : fge a b = decide (F32.key b ≤ F32.key a) := by simp [fge, ha, hb]

theorem flt_of_not_nan : flt a b = decide (F32.key a < F32.key b) := by simp [flt, ha, hb]

/-- One comparison is the negation of the other where no operand is a NaN. -/
theorem flt_eq_not_fge : flt a b = !fge a b := by
  rw [fge_of_not_nan ha hb, flt_of_not_nan ha hb, ← decide_not, decide_eq_decide, Int.not_le]

end

theorem key_of_inf {a : F32} (h : F32.isInf a = true) : F32.key a = if F32.neg a then -(infMag : Int) else infMag := by
  rw [F32.key, (F32.isInf_iff a).mp h]

theorem key_of_finite {a : F32} (h : F32.isFinite a = true) : -(infMag : Int) < F32.key a ∧ F32.key a < infMag := by
  have hlt : F32.mag a < infMag := of_decide_eq_true h
  rw [F32.key]
  split <;> omega

theorem fge_finite {a b : F32} (ha : F32.isFinite a = true) (hb : F32.isFinite b = true) :
    fge a b = true ↔ F32.toUnits b ≤ F32.toUnits a := by
  rw [fge_of_not_nan (not_nan_of_finite ha) (not_nan_of_finite hb), decide_eq_true_eq, toUnits_le_iff]

theorem fge_inf_finite {a b : F32} (ha : F32.isInf a = true) (hb : F32.isFinite b = true) : fge a b = !F32.neg a := by
  have hkey := key_of_finite hb
  rw [fge_of_not_nan (not_nan_of_inf ha) (not_nan_of_finite hb), key_of_inf ha]
  cases F32.neg a <;> simp <;> omega

theorem fge_finite_inf {a b : F32} (ha : F32.isFinite a = true) (hb : F32.isInf b = true) : fge a b = F32.neg b := by
  have hkey := key_of_finite ha
  rw [fge_of_not_nan (not_nan_of_finite ha) (not_nan_of_inf hb), key_of_inf hb]
  cases F32.neg b <;> simp <;> omega

theorem fge_inf_inf {a b : F32} (ha : F32.isInf a = true) (hb : F32.isInf b = true) :
    fge a b = (!F32.neg a || F32.neg b) := by
  rw [fge_of_not_nan (not_nan_of_inf ha) (not_nan_of_inf hb), key_of_inf ha, key_of_inf hb]
  cases F32.neg a <;> cases F32.neg b <;> decide

theorem compare_nan {a b : F32} (h : F32.isNaN a = true ∨ F32.isNaN b = true) : fge a b = false ∧ flt a b = false := by
  obtain h | h := h <;> simp [fge, flt, h]

/-- Settles O54, by the classes of the two operands. -/
theorem comparisonsFollowRealValue : Obligations.ComparisonsFollowRealValue := by
  unfold Obligations.ComparisonsFollowRealValue
  intro a b
  refine ⟨compare_nan, fun ha hb => ⟨fge_finite ha hb, ?_⟩, fun ha hb => ⟨fge_inf_finite ha hb, ?_⟩,
    fun ha hb => ⟨fge_finite_inf ha hb, ?_⟩, fun ha hb => ⟨fge_inf_inf ha hb, ?_⟩⟩
  · rw [flt_eq_not_fge (not_nan_of_finite ha) (not_nan_of_finite hb), Bool.not_eq_true', ← Bool.not_eq_true,
      fge_finite ha hb, Int.not_le]
  · rw [flt_eq_not_fge (not_nan_of_inf ha) (not_nan_of_finite hb), fge_inf_finite ha hb, Bool.not_not]
  · rw [flt_eq_not_fge (not_nan_of_finite ha) (not_nan_of_inf hb), fge_finite_inf ha hb]
  · rw [flt_eq_not_fge (not_nan_of_inf ha) (not_nan_of_inf hb), fge_inf_inf ha hb, Bool.not_or, Bool.not_not]

/-! ### The magnitudes that are exactly representable -/

/-- A magnitude that some finite value has, in units of 2^-149. -/
def Representable (u : Nat) : Prop := ∃ m, m < infMag ∧ unitsOfMag m = u

theorem representable_units {a : F32} (h : F32.isFinite a = true) : Representable (F32.units a) :=
  ⟨F32.mag a, of_decide_eq_true h, rfl⟩

/-- Twenty-four bits times a power of two within the range of the format. -/
theorem representable_mul_pow {c e : Nat} (hc : c < 16777216) (he : e ≤ 253) : Representable (c * 2 ^ e) := by
  induction e generalizing c with
  | zero => exact ⟨c, by rw [infMag]; omega, by simpa using unitsOfMag_significand (.inl rfl) hc.le⟩
  | succ e ih =>
    rcases Nat.lt_or_ge c 8388608 with hsub | hnorm
    · rw [Nat.pow_succ', ← Nat.mul_assoc]
      exact ih (by omega) (by omega)
    · exact ⟨(e + 1) * 8388608 + c, by rw [infMag]; omega, unitsOfMag_significand (.inr hnorm) hc.le⟩

theorem Representable.exists_mul_pow {u : Nat} (h : Representable u) :
    ∃ c e, c < 16777216 ∧ e ≤ 253 ∧ u = c * 2 ^ e := by
  obtain ⟨m, hm, rfl⟩ := h
  rw [infMag] at hm
  rcases mag_cases m with hsub | ⟨e, f, hf, rfl⟩
  · exact ⟨m, 0, by omega, by omega, by rw [unitsOfMag_sub m hsub, pow_zero, Nat.mul_one]⟩
  · exact ⟨8388608 + f, e, by omega, by omega, unitsOfMag_norm e f hf⟩

/-- Rounding a representable magnitude is exact. -/
theorem Representable.round {u : Nat} (h : Representable u) (b : Bool) :
    F32.neg (packF32 b (roundMag u 1)) = b ∧ F32.isFinite (packF32 b (roundMag u 1)) = true ∧
      F32.units (packF32 b (roundMag u 1)) = u := by
  obtain ⟨m, hm, rfl⟩ := h
  rw [roundMag_units m hm.le]
  exact ⟨packF32_neg b m (hm.trans (by decide)), isFinite_packF32 b hm, units_packF32 b hm.le⟩

/-- A finite value is its sign and its rounded number of units. -/
theorem packF32_roundMag_units {a : F32} (h : F32.isFinite a = true) :
    packF32 (F32.neg a) (roundMag (F32.units a) 1) = a := by
  rw [F32.units, roundMag_units _ (le_of_lt (of_decide_eq_true h)), packF32_self]

/-! ### `ROUND` (spec/40_numerics.md R142) -/

theorem fround_finite (d : Draw) {v : F32} (h : F32.isFinite v = true) :
    fround d v = packF32 (F32.neg v) (roundMag ((2 * F32.units v + 2 ^ 149) / 2 ^ 150 * 2 ^ 149) 1) := by
  rw [fround, not_nan_of_finite h, not_inf_of_finite h]; rfl

/-- From 2^23 on every value is an integer. -/
theorem one_dvd_unitsOfMag {m : Nat} (h : 0x4B000000 ≤ m) : 2 ^ 149 ∣ unitsOfMag m := by
  rcases mag_cases m with hsub | ⟨e, f, hf, rfl⟩
  · omega
  · rw [unitsOfMag_norm e f hf]
    exact Dvd.dvd.mul_left (Nat.pow_dvd_pow 2 (by omega)) _

theorem round_of_integral {u : Nat} (h : 2 ^ 149 ∣ u) : (2 * u + 2 ^ 149) / 2 ^ 150 * 2 ^ 149 = u := by
  omega

theorem representable_round {v : F32} (h : F32.isFinite v = true) :
    Representable ((2 * F32.units v + 2 ^ 149) / 2 ^ 150 * 2 ^ 149) := by
  rcases Nat.lt_or_ge (F32.mag v) 0x4B000000 with hsmall | hlarge
  · have hlt : F32.units v < unitsOfMag 0x4B000000 := (unitsOfMag_lt_iff _ _).mpr hsmall
    have hval : unitsOfMag 0x4B000000 = 8388608 * 2 ^ 149 := by decide
    exact representable_mul_pow (by omega) (by omega)
  · rw [round_of_integral (u := F32.units v) (one_dvd_unitsOfMag hlarge)]
    exact representable_units h

/-- Settles O55: the magnitude to give is representable, and it is that of the operand from 2^23 on. -/
theorem roundIsExactTiesAway : Obligations.RoundIsExactTiesAway := by
  unfold Obligations.RoundIsExactTiesAway
  refine fun d v => ⟨fun h => ?_, fun h => ?_, fun h => ?_⟩
  · rw [fround, if_pos h]
    exact freeNaN_isNaN d
  · rw [fround, not_nan_of_inf h, if_neg (by decide), if_pos h]
  · rw [fround_finite d h]
    obtain ⟨hneg, hfin, hunits⟩ := (representable_round h).round (F32.neg v)
    refine ⟨hneg, hfin, hunits, fun hlarge => ?_⟩
    rw [round_of_integral (u := F32.units v) (one_dvd_unitsOfMag hlarge), packF32_roundMag_units h]

/-! ### `FMOD` (spec/40_numerics.md R144) -/

/-- The remainder is a multiple of the smaller of the two steps, and below its operand with that step. -/
theorem Representable.mod {x y : Nat} (hx : Representable x) (hy : Representable y) (hpos : 0 < y) :
    Representable (x % y) := by
  obtain ⟨c, e, hc, he, rfl⟩ := hx.exists_mul_pow
  obtain ⟨c', e', hc', he', rfl⟩ := hy.exists_mul_pow
  rcases Nat.le_total e' e with h | h
  · rw [← Nat.sub_add_cancel h, pow_add, ← Nat.mul_assoc, Nat.mul_mod_mul_right]
    exact representable_mul_pow ((Nat.mod_lt _ (Nat.pos_of_mul_pos_right hpos)).trans hc') he'
  · rw [← Nat.sub_add_cancel h, pow_add, ← Nat.mul_assoc, Nat.mul_mod_mul_right]
    exact representable_mul_pow ((Nat.mod_le _ _).trans_lt hc) he

theorem fmod_finite (d : Draw) {a b : F32} (ha : F32.isFinite a = true) (hb : F32.isFinite b = true)
    (hz : F32.isZero b = false) : fmod d a b = packF32 (F32.neg a) (roundMag (F32.units a % F32.units b) 1) := by
  rw [fmod, not_nan_of_finite ha, not_nan_of_finite hb, not_inf_of_finite ha, not_inf_of_finite hb, hz]; rfl

theorem fmod_invalid (d : Draw) {a b : F32}
    (h : F32.isNaN a = true ∨ F32.isNaN b = true ∨ F32.isInf a = true ∨ F32.isZero b = true) :
    fmod d a b = freeNaN d := by
  rw [fmod, if_pos (by simpa [or_assoc] using h)]

theorem fmod_inf (d : Draw) {a b : F32} (ha : F32.isFinite a = true) (hb : F32.isInf b = true) : fmod d a b = a := by
  rw [fmod, not_nan_of_finite ha, not_nan_of_inf hb, not_inf_of_finite ha, not_zero_of_inf hb, hb]; rfl

/-- `FMOD` sees the divisor's magnitude alone. -/
theorem fmod_fneg (d : Draw) (a b : F32) : fmod d a (fneg b) = fmod d a b := by
  rw [fmod, fmod, fneg_isNaN, fneg_isZero, fneg_isInf, fneg_units]

/-- Settles O56: the remainder of the magnitudes is representable. -/
theorem fmodIsTheExactRemainder : Obligations.FmodIsTheExactRemainder := by
  unfold Obligations.FmodIsTheExactRemainder
  refine fun d a b => ⟨fun ha hb hz => ?_, fun h => ?_, fmod_inf d, fmod_fneg d a b⟩
  · rw [fmod_finite d ha hb hz]
    exact ((representable_units ha).mod (representable_units hb) (units_pos hz)).round (F32.neg a)
  · rw [fmod_invalid d h]
    exact freeNaN_isNaN d

/-! ### `I2F` (spec/40_numerics.md R150) -/

theorem representable_index {i : Nat} (h : i ≤ 16777216) : Representable (i * 2 ^ 149) := by
  rcases h.lt_or_eq with hlt | rfl
  · exact representable_mul_pow hlt (by decide)
  · exact representable_mul_pow (c := 8388608) (e := 150) (by decide) (by decide)

/-- Settles O57: every index has at most 24 significant bits. -/
theorem indexConversionIsExact : Obligations.IndexConversionIsExact := by
  unfold Obligations.IndexConversionIsExact
  intro i hi
  obtain ⟨hneg, hfin, hunits⟩ := (representable_index hi).round false
  exact ⟨hunits, hneg, hfin⟩

end Sys2Proof.Machine
end

section
/-! PROOFS. The special cases of the operations (spec/40_numerics.md R134, R135) and the named properties of `TANH32`
(R148) and `POW32` (R146). -/

namespace Sys2Proof.Machine

/-! ### Infinities, zeros and NaNs as operands, one row at a time -/

section
variable (d : Draw) {a b : F32}

theorem fadd_nan (h : F32.isNaN a = true ∨ F32.isNaN b = true) : fadd d a b = freeNaN d :=
  if_pos (Bool.or_eq_true_iff.mpr h)

theorem fsub_nan (h : F32.isNaN a = true ∨ F32.isNaN b = true) : fsub d a b = freeNaN d :=
  fadd_nan d (by rwa [fneg_isNaN])

theorem fmul_nan (h : F32.isNaN a = true ∨ F32.isNaN b = true) : fmul d a b = freeNaN d :=
  if_pos (Bool.or_eq_true_iff.mpr h)

theorem fdiv_nan (h : F32.isNaN a = true ∨ F32.isNaN b = true) : fdiv d a b = freeNaN d :=
  if_pos (Bool.or_eq_true_iff.mpr h)

theorem fadd_inf_inf (ha : F32.isInf a = true) (hb : F32.isInf b = true) :
    fadd d a b = if F32.neg a = F32.neg b then a else freeNaN d := by
  simp [fadd, not_nan_of_inf ha, not_nan_of_inf hb, ha, hb]

theorem fadd_inf_finite (ha : F32.isInf a = true) (hb : F32.isFinite b = true) : fadd d a b = a := by
  simp [fadd, not_nan_of_inf ha, not_nan_of_finite hb, ha, not_inf_of_finite hb]

theorem fadd_finite_inf (ha : F32.isFinite a = true) (hb : F32.isInf b = true) : fadd d a b = b := by
  simp [fadd, not_nan_of_finite ha, not_nan_of_inf hb, not_inf_of_finite ha, hb]

theorem fsub_inf_inf (ha : F32.isInf a = true) (hb : F32.isInf b = true) :
    fsub d a b = if F32.neg a = F32.neg b then freeNaN d else a := by
  rw [fsub, fadd_inf_inf d ha (by rwa [fneg_isInf]), fneg_neg]
  cases F32.neg a <;> cases F32.neg b <;> rfl

theorem fmul_zero_inf (ha : F32.isZero a = true) (hb : F32.isInf b = true) :
    fmul d a b = freeNaN d ∧ fmul d b a = freeNaN d := by
  have hfin := finite_of_zero ha
  constructor <;> simp [fmul, not_nan_of_finite hfin, not_nan_of_inf hb, ha, hb]

theorem fmul_inf (ha : F32.isInf a = true) (hb : F32.isNaN b = false) (hz : F32.isZero b = false) :
    fmul d a b = packF32 (F32.neg a != F32.neg b) infMag ∧ fmul d b a = packF32 (F32.neg a != F32.neg b) infMag := by
  rw [fmul, fmul, not_nan_of_inf ha, hb, ha, hz, not_zero_of_inf ha, bne_comm (a := F32.neg b)]
  simp

theorem fdiv_inf_inf (ha : F32.isInf a = true) (hb : F32.isInf b = true) : fdiv d a b = freeNaN d := by
  simp [fdiv, not_nan_of_inf ha, not_nan_of_inf hb, ha, hb]

theorem fdiv_zero_zero (ha : F32.isZero a = true) (hb : F32.isZero b = true) : fdiv d a b = freeNaN d := by
  simp [fdiv, not_nan_of_finite (finite_of_zero ha), not_nan_of_finite (finite_of_zero hb), ha, hb]

theorem fdiv_inf_finite (ha : F32.isInf a = true) (hb : F32.isFinite b = true) :
    fdiv d a b = packF32 (F32.neg a != F32.neg b) infMag := by
  simp [fdiv, not_nan_of_inf ha, not_nan_of_finite hb, not_zero_of_inf ha, ha, not_inf_of_finite hb]

theorem fdiv_by_zero (ha : F32.isFinite a = true) (hz : F32.isZero a = false) (hb : F32.isZero b = true) :
    fdiv d a b = packF32 (F32.neg a != F32.neg b) infMag := by
  simp [fdiv, not_nan_of_finite ha, not_nan_of_finite (finite_of_zero hb), not_inf_of_finite ha, hz, hb]

theorem fdiv_finite_inf (ha : F32.isFinite a = true) (hb : F32.isInf b = true) :
    fdiv d a b = packF32 (F32.neg a != F32.neg b) 0 := by
  simp [fdiv, not_nan_of_finite ha, not_nan_of_inf hb, not_inf_of_finite ha, not_zero_of_inf hb, hb]

/-- An exact zero sum is +0.0 unless both operands are negative. -/
theorem fadd_exact_zero (ha : F32.isFinite a = true) (hb : F32.isFinite b = true)
    (h : F32.toUnits a + F32.toUnits b = 0) : fadd d a b = packF32 (F32.neg a && F32.neg b) 0 := by
  rw [fadd_finite d a b ha hb, roundUnits, if_pos h]

theorem isInf_packF32_infMag (s : Bool) : F32.isInf (packF32 s infMag) = true ∧ F32.neg (packF32 s infMag) = s :=
  ⟨(F32.isInf_iff _).mpr (packF32_mag s _ (by decide)), packF32_neg s _ (by decide)⟩

theorem isZero_packF32_zero (s : Bool) : F32.isZero (packF32 s 0) = true ∧ F32.neg (packF32 s 0) = s :=
  ⟨(F32.isZero_iff _).mpr (packF32_mag s _ (by decide)), packF32_neg s _ (by decide)⟩

end

/-- Settles O52: each clause is one row above, the rounded rows have the sign the operation packs. -/
theorem arithmeticSpecialCases : Obligations.ArithmeticSpecialCases := by
  unfold Obligations.ArithmeticSpecialCases
  intro d a b
  refine ⟨fun ha hb => ⟨?_, ?_, ?_⟩, fun ha hb => ?_, fun ha hb => ?_, fun ha hz hb => ?_, fun ha hb => ?_,
    fun ha => ?_, fun ha hb hsum hsign => ?_, fun ha => ?_, fun ha hb _ => ?_, fun ha hb hz _ => ?_, fun ha hb => ?_,
    fun ha hb hz => ?_, fun ha hb => ⟨fun hs => ?_, fun hs => ?_, ?_⟩⟩
  · rw [fadd_inf_inf d ha hb]
    split
    · next hs => rw [hs, not_nan_of_inf ha, bne_self_eq_false]
    · next hs => rw [freeNaN_isNaN, bne_iff_ne.mpr hs]
  · rw [fsub_inf_inf d ha hb]
    split
    · next hs => rw [hs, freeNaN_isNaN, beq_self_eq_true]
    · next hs => rw [not_nan_of_inf ha, beq_false_of_ne hs]
  · rw [fdiv_inf_inf d ha hb, freeNaN_isNaN]
  · obtain ⟨hab, hba⟩ := fmul_zero_inf d ha hb
    rw [hab, hba, freeNaN_isNaN]
    exact ⟨rfl, rfl⟩
  · rw [fdiv_zero_zero d ha hb, freeNaN_isNaN]
  · rw [fdiv_by_zero d ha hz hb]
    exact isInf_packF32_infMag _
  · rw [fdiv_finite_inf d ha hb]
    exact isZero_packF32_zero _
  · rw [fsub, fadd_exact_zero d ha (by rwa [fneg_isFinite]) (by rw [fneg_toUnits, Int.add_right_neg]), fneg_neg,
      Bool.and_not_self]
    rfl
  · rw [fadd_exact_zero d ha hb hsum, Bool.and_eq_false_iff.mpr (by revert hsign; cases F32.neg a <;> simp)]
    rfl
  · have hunits : F32.toUnits a = 0 := (toUnits_eq_zero a).mpr ((units_eq_zero a).mpr ha)
    rw [fadd_exact_zero d (finite_of_zero ha) (finite_of_zero ha) (by rw [hunits, Int.add_zero]), Bool.and_self,
      ← (F32.isZero_iff a).mp ha, packF32_self]
  · rw [fmul_finite d a b ha hb, packF32_neg _ _ (roundMag_lt _ _)]
  · rw [fdiv_finite d a b ha hb hz, packF32_neg _ _ (roundMag_lt _ _)]
  · have hnb : F32.isFinite (fneg b) = true := by rwa [fneg_isFinite]
    have hna : F32.isInf (fneg a) = true := by rwa [fneg_isInf]
    rw [fsub, fsub, fadd_inf_finite d ha hb, fadd_finite_inf d hb ha, fadd_inf_finite d ha hnb,
      fadd_finite_inf d hb hna, fdiv_inf_finite d ha hb]
    exact ⟨rfl, rfl, rfl, rfl, isInf_packF32_infMag _⟩
  · obtain ⟨hab, hba⟩ := fmul_inf d ha (not_nan_of_finite hb) hz
    obtain ⟨hinf, hneg⟩ := isInf_packF32_infMag (F32.neg a != F32.neg b)
    rw [hab, hba]
    exact ⟨hinf, hneg, hinf, hneg⟩
  · rw [fadd_inf_inf d ha hb, if_pos hs]
  · rw [fsub_inf_inf d ha hb, if_neg hs]
  · rw [(fmul_inf d ha (not_nan_of_inf hb) (not_zero_of_inf hb)).1]
    exact isInf_packF32_infMag _

/-! ### `TANH32` (spec/40_numerics.md R148) -/

theorem tanh32_nan (d : Draw) {v : F32} (h : F32.isNaN v = true) : tanh32 d v = freeNaN d := if_pos h

theorem tanh32_zero (d : Draw) {v : F32} (h : F32.isZero v = true) : tanh32 d v = v := by
  rw [tanh32, not_nan_of_finite (finite_of_zero h), h]; rfl

theorem tanh32_saturated (d : Draw) {v : F32} (hn : F32.isNaN v = false) (h : F32.mag tenF ≤ F32.mag v) :
    tanh32 d v = packF32 (F32.neg v) oneMag := by
  have hz : F32.isZero v = false := decide_eq_false fun hz => by rw [hz] at h; revert h; decide
  rw [tanh32, hn, hz, if_neg (by decide), if_neg (by decide), if_pos h]

/-- TANH-SIGN and TANH-RANGE: the sign of the operand and a magnitude of at most 1.0, whatever the free choice. -/
theorem tanh32_sign_range (d : Draw) {v : F32} (hn : F32.isNaN v = false) :
    ∃ m ≤ oneMag, tanh32 d v = packF32 (F32.neg v) m := by
  by_cases hz : F32.isZero v = true
  · exact ⟨0, Nat.zero_le _, by rw [tanh32_zero d hz, ← (F32.isZero_iff v).mp hz, packF32_self]⟩
  · by_cases hs : F32.mag tenF ≤ F32.mag v
    · exact ⟨oneMag, le_rfl, tanh32_saturated d hn hs⟩
    · refine ⟨(tanhRange v).pick (Config.tanhChoice v), ((tanhRange v).pick_le _).trans (nearRange_hi_le _ _ _), ?_⟩
      rw [tanh32, hn, if_neg (by decide), if_neg hz, if_neg hs]

theorem key_packF32 (b : Bool) {m : Nat} (hm : m ≤ infMag) :
    F32.key (packF32 b m) = if b then -(m : Int) else m := by
  have hlt := lt_of_le_of_lt hm (show infMag < 2147483648 by decide)
  rw [F32.key, packF32_neg b m hlt, packF32_mag b m hlt]

/-- What a comparison that is true says. -/
theorem fge_true {a b : F32} (h : fge a b = true) :
    F32.isNaN a = false ∧ F32.isNaN b = false ∧ F32.key b ≤ F32.key a := by
  simpa [fge, and_assoc] using h

theorem sign_mag_of_pos_le_key {v : F32} {k : Nat} (hk : 0 < k) (h : (k : Int) ≤ F32.key v) :
    F32.neg v = false ∧ k ≤ F32.mag v := by
  rw [F32.key] at h
  cases hv : F32.neg v <;> simp only [hv, Bool.false_eq_true, if_true, if_false] at h
  · exact ⟨rfl, by omega⟩
  · omega

theorem sign_mag_of_key_le_neg {v : F32} {k : Nat} (hk : 0 < k) (h : F32.key v ≤ -(k : Int)) :
    F32.neg v = true ∧ k ≤ F32.mag v := by
  rw [F32.key] at h
  cases hv : F32.neg v <;> simp only [hv, Bool.false_eq_true, if_true, if_false] at h
  · omega
  · exact ⟨rfl, by omega⟩

/-- Settles O58: the sign and the range hold of every operand, and the rest are the three branches without a choice. -/
theorem tanhNamedProperties : Obligations.TanhNamedProperties := by
  unfold Obligations.TanhNamedProperties
  intro d v hn
  obtain ⟨m, hm, hv⟩ := tanh32_sign_range d hn
  have hinf : m ≤ infMag := hm.trans (by decide)
  have hresult : F32.isNaN (tanh32 d v) = false := by rw [hv, isNaN_packF32 _ hinf]
  have hkey : -(oneMag : Int) ≤ F32.key (tanh32 d v) ∧ F32.key (tanh32 d v) ≤ oneMag := by
    rw [hv, key_packF32 _ hinf]
    split <;> omega
  refine ⟨tanh32_zero d (by decide), tanh32_zero d (by decide), tanh32_saturated d (by decide) (by decide),
    tanh32_saturated d (by decide) (by decide), ?_, ?_, ?_, fun h => ?_, fun h => ?_⟩
  · rw [fge_of_not_nan hresult (by decide)]
    exact decide_eq_true hkey.1
  · rw [fge_of_not_nan (by decide) hresult]
    exact decide_eq_true hkey.2
  · rw [hv, packF32_neg _ _ (lt_of_le_of_lt hinf (by decide))]
  · obtain ⟨-, -, hle⟩ := fge_true h
    obtain ⟨hneg, hmag⟩ := sign_mag_of_pos_le_key (k := F32.mag tenF) (by decide) hle
    rw [tanh32_saturated d hn hmag, hneg]; rfl
  · obtain ⟨-, -, hle⟩ := fge_true h
    obtain ⟨hneg, hmag⟩ := sign_mag_of_key_le_neg (k := F32.mag tenF) (by decide) hle
    rw [tanh32_saturated d hn hmag, hneg]; rfl

/-! ### `POW32` (spec/40_numerics.md R146) -/

theorem pow32_zero (d : Draw) (a : F32) {b : F32} (h : F32.isZero b = true) : pow32 d a b = oneF := if_pos h

theorem pow32_nan (d : Draw) {a b : F32} (hz : F32.isZero b = false) (h : F32.isNaN a = true ∨ F32.isNaN b = true) :
    pow32 d a b = freeNaN d := by
  rw [pow32, hz, if_neg (by decide), if_pos (Bool.or_eq_true_iff.mpr h)]

theorem pow32_two (d : Draw) {b : F32} (hz : F32.isZero b = false) (hn : F32.isNaN b = false) :
    pow32 d twoF b = powOfTwo b := by
  rw [pow32, hz, hn, show F32.isNaN twoF = false by decide, if_neg (by decide), if_neg (by decide), if_pos rfl]

theorem pow32_ten (d : Draw) {b : F32} (hz : F32.isZero b = false) (hn : F32.isNaN b = false) :
    pow32 d tenF b = powOfTen b := by
  rw [pow32, hz, hn, show F32.isNaN tenF = false by decide, if_neg (by decide), if_neg (by decide),
    if_neg (show tenF ≠ twoF by decide), if_pos rfl]

/-- The free choice of POW-NEAR or of POW-POS is never beyond infinity. -/
theorem powRange_pick_le (lnA : Nat) (b : F32) (c : BitVec 32) : (powRange lnA b).pick c ≤ infMag := by
  refine (MagRange.pick_le _ c).trans ?_
  rw [powRange]
  split
  · exact (nearRange_hi_le _ _ _).trans (by decide)
  · exact le_rfl

theorem powOfTwo_positive (b : F32) : ∃ m ≤ infMag, powOfTwo b = packF32 false m := by
  rw [powOfTwo]
  split
  · exact ⟨_, le_rfl, rfl⟩
  · split
    · exact ⟨_, Nat.zero_le _, rfl⟩
    · split
      · exact ⟨_, roundMag_le _ _, rfl⟩
      · exact ⟨_, powRange_pick_le _ _ _, rfl⟩

theorem powOfTen_positive (b : F32) : ∃ m ≤ infMag, powOfTen b = packF32 false m := by
  rw [powOfTen]
  split
  · exact ⟨_, le_rfl, rfl⟩
  · split
    · exact ⟨_, Nat.zero_le _, rfl⟩
    · split
      · exact ⟨F32.mag tenF, by decide, by decide⟩
      · split
        · exact ⟨_, MagRange.pick_le _ _, rfl⟩
        · exact ⟨_, powRange_pick_le _ _ _, rfl⟩

/-- POW-POS, as the model reads it (log entry 22): a positive sign, for both bases and whatever the free choice. -/
theorem pow32_positive (d : Draw) {a b : F32} (ha : a = twoF ∨ a = tenF) (hb : F32.isNaN b = false) :
    ∃ m ≤ infMag, pow32 d a b = packF32 false m := by
  cases hz : F32.isZero b
  · obtain rfl | rfl := ha
    · rw [pow32_two d hz hb]
      exact powOfTwo_positive b
    · rw [pow32_ten d hz hb]
      exact powOfTen_positive b
  · exact ⟨oneMag, by decide, pow32_zero d a hz⟩

/-- A value compared with an integral one, both given by their integers. -/
theorem fge_integers {a b : F32} {j k : Int} (ha : F32.isFinite a = true) (hb : F32.isFinite b = true)
    (hj : F32.toUnits a = j * 2 ^ 149) (hk : F32.toUnits b = k * 2 ^ 149) : fge a b = true ↔ k ≤ j := by
  rw [fge_finite ha hb, hj, hk]
  omega

/-- POW-2INT: an integer `k` in the range takes the branch of the exact powers. -/
theorem powOfTwo_integer {b : F32} {k : Int} (hlow : -149 ≤ k) (hhigh : k ≤ 127) (hb : F32.isFinite b = true)
    (hk : F32.toUnits b = k * 2 ^ 149) : powOfTwo b = packF32 false (roundMag (2 ^ (k + 149).toNat) 1) := by
  have h128 := fge_integers (k := 128) hb (show F32.isFinite f128 = true by decide) hk (by decide)
  have h151 := fge_integers (j := -151) (show F32.isFinite fMinus151 = true by decide) hb (by decide) hk
  have h149 := fge_integers (k := -149) hb (show F32.isFinite fMinus149 = true by decide) hk (by decide)
  have h127 := fge_integers (j := 127) (show F32.isFinite f127 = true by decide) hb (by decide) hk
  have hint : F32.isIntegral b = true := by
    rw [F32.isIntegral, ← F32.toUnits_natAbs, hk, decide_eq_true_eq]
    omega
  rw [powOfTwo, if_neg (h128.not.mpr (by omega)), if_neg (h151.not.mpr (by omega)), hint, h149.mpr hlow,
    h127.mpr hhigh, powTwoInt, hk, Int.mul_ediv_cancel _ (by decide)]
  rfl

theorem representable_two_pow {j : Nat} (h : j ≤ 276) : Representable (2 ^ j) := by
  rcases Nat.lt_or_ge j 24 with hsmall | hlarge
  · have hpow : 2 ^ j ≤ 2 ^ 23 := Nat.pow_le_pow_right (by decide) (by omega)
    simpa using representable_mul_pow (c := 2 ^ j) (e := 0) (by omega) (by decide)
  · have hrep := representable_mul_pow (c := 2 ^ 23) (e := j - 23) (by decide) (by omega)
    rwa [← pow_add, Nat.add_sub_cancel' (by omega)] at hrep

theorem pow32_two_integer (d : Draw) {b : F32} {k : Int} (hlow : -149 ≤ k) (hhigh : k ≤ 127)
    (hb : F32.isFinite b = true) (hk : F32.toUnits b = k * 2 ^ 149) :
    F32.neg (pow32 d twoF b) = false ∧ F32.isFinite (pow32 d twoF b) = true ∧
      F32.units (pow32 d twoF b) = 2 ^ (k + 149).toNat := by
  cases hz : F32.isZero b
  · rw [pow32_two d hz (not_nan_of_finite hb), powOfTwo_integer hlow hhigh hb hk]
    exact (representable_two_pow (by omega)).round false
  · have hzero : F32.toUnits b = 0 := (toUnits_eq_zero b).mpr ((units_eq_zero b).mpr hz)
    obtain rfl : k = 0 := by omega
    rw [pow32_zero d twoF hz]
    decide

/-- An exponent at or above a positive bound is no NaN and no zero. -/
theorem exponent_of_fge {b c : F32} (hc : 0 < F32.key c) (h : fge b c = true) :
    F32.isZero b = false ∧ F32.isNaN b = false := by
  obtain ⟨hn, -, hle⟩ := fge_true h
  refine ⟨Bool.eq_false_iff.mpr fun hz => ?_, hn⟩
  have hkey : F32.key b = 0 := by rw [F32.key, (F32.isZero_iff b).mp hz]; simp
  omega

/-- POW-UNF: at or below -151.0 the second branch is taken. -/
theorem pow32_two_underflow (d : Draw) {b : F32} (h : fge fMinus151 b = true) : pow32 d twoF b = 0 := by
  obtain ⟨-, hn, hle⟩ := fge_true h
  obtain ⟨hneg, hmag⟩ := sign_mag_of_key_le_neg (k := F32.mag fMinus151) (by decide) hle
  have hz : F32.isZero b = false := Bool.eq_false_iff.mpr fun hz => by
    rw [(F32.isZero_iff b).mp hz] at hmag
    exact absurd hmag (by decide)
  have hover : ¬fge b f128 = true := fun hover => by
    obtain ⟨-, -, hge⟩ := fge_true hover
    exact absurd (hge.trans hle) (by decide)
  rw [pow32_two d hz hn, powOfTwo, if_neg hover, if_pos h]
  rfl

/-- Settles O59: each named property is a branch of `POW32`, and POW-POS holds of all of them. -/
theorem powNamedProperties : Obligations.PowNamedProperties := by
  unfold Obligations.PowNamedProperties
  intro d a b
  refine ⟨pow32_zero d a, ?_, ?_, fun k hlow hhigh hb hk => pow32_two_integer d hlow hhigh hb hk, fun h => ?_,
    fun h => ?_, pow32_two_underflow d, ?_, fun ha hb => ?_⟩
  · exact (pow32_two d (by decide) (by decide)).trans (by decide)
  · exact (pow32_ten d (by decide) (by decide)).trans (by decide)
  · obtain ⟨hz, hn⟩ := exponent_of_fge (by decide) h
    exact (pow32_two d hz hn).trans (if_pos h)
  · obtain ⟨hz, hn⟩ := exponent_of_fge (by decide) h
    exact (pow32_ten d hz hn).trans (if_pos h)
  · exact (pow32_ten d (by decide) (by decide)).trans (by decide)
  · obtain ⟨m, hm, hpow⟩ := pow32_positive d ha hb
    rw [hpow]
    exact ⟨isNaN_packF32 _ hm, packF32_neg _ _ (lt_of_le_of_lt hm (by decide))⟩

/-! ### Every NaN result is the free NaN (spec/40_numerics.md R135) -/

theorem isNaN_packF32_roundMag (s : Bool) (n k : Nat) : F32.isNaN (packF32 s (roundMag n k)) = false :=
  isNaN_packF32 s (roundMag_le n k)

theorem isNaN_roundUnits (zeroNeg : Bool) (v : Int) : F32.isNaN (roundUnits zeroNeg v) = false := by
  rw [roundUnits_eq, isNaN_packF32_roundMag]

section
variable (d : Draw) (a b : F32)

/-- The result is the free NaN, an operand that is no NaN, or a rounded sum. -/
theorem fadd_freeNaN_or_number : fadd d a b = freeNaN d ∨ F32.isNaN (fadd d a b) = false := by
  rw [fadd]
  split
  · exact .inl rfl
  · next hnan =>
    obtain ⟨ha, hb⟩ : F32.isNaN a = false ∧ F32.isNaN b = false := by simpa using hnan
    split
    · split
      · exact .inl rfl
      · exact .inr ha
    · split
      · exact .inr hb
      · exact .inr (isNaN_roundUnits _ _)

theorem fsub_freeNaN_or_number : fsub d a b = freeNaN d ∨ F32.isNaN (fsub d a b) = false :=
  fadd_freeNaN_or_number d a (fneg b)

theorem fmul_freeNaN_or_number : fmul d a b = freeNaN d ∨ F32.isNaN (fmul d a b) = false := by
  rw [fmul]
  split
  · exact .inl rfl
  · split
    · exact .inl rfl
    · split
      · exact .inr (isNaN_packF32 _ le_rfl)
      · exact .inr (isNaN_packF32_roundMag _ _ _)

theorem fdiv_freeNaN_or_number : fdiv d a b = freeNaN d ∨ F32.isNaN (fdiv d a b) = false := by
  rw [fdiv]
  split
  · exact .inl rfl
  · split
    · exact .inl rfl
    · split
      · exact .inr (isNaN_packF32 _ le_rfl)
      · split
        · exact .inr (isNaN_packF32 _ (Nat.zero_le _))
        · exact .inr (isNaN_packF32_roundMag _ _ _)

theorem fmod_freeNaN_or_number : fmod d a b = freeNaN d ∨ F32.isNaN (fmod d a b) = false := by
  rw [fmod]
  split
  · exact .inl rfl
  · next hinvalid =>
    obtain ⟨⟨⟨ha, -⟩, -⟩, -⟩ :
        ((F32.isNaN a = false ∧ F32.isNaN b = false) ∧ F32.isInf a = false) ∧ F32.isZero b = false := by
      simpa using hinvalid
    split
    · exact .inr ha
    · exact .inr (isNaN_packF32_roundMag _ _ _)

theorem fround_freeNaN_or_number : fround d a = freeNaN d ∨ F32.isNaN (fround d a) = false := by
  rw [fround]
  split
  · exact .inl rfl
  · next hnan =>
    split
    · exact .inr (Bool.eq_false_iff.mpr hnan)
    · exact .inr (isNaN_packF32_roundMag _ _ _)

theorem tanh32_freeNaN_or_number : tanh32 d a = freeNaN d ∨ F32.isNaN (tanh32 d a) = false := by
  cases hnan : F32.isNaN a
  · obtain ⟨m, hm, htanh⟩ := tanh32_sign_range d hnan
    exact .inr (by rw [htanh, isNaN_packF32 _ (hm.trans (by decide))])
  · exact .inl (tanh32_nan d hnan)

theorem pow32_freeNaN_or_number (ha : a = twoF ∨ a = tenF) :
    pow32 d a b = freeNaN d ∨ F32.isNaN (pow32 d a b) = false := by
  cases hnan : F32.isNaN b
  · obtain ⟨m, hm, hpow⟩ := pow32_positive d ha hnan
    exact .inr (by rw [hpow, isNaN_packF32 _ hm])
  · cases hz : F32.isZero b
    · exact .inl (pow32_nan d hz (.inr hnan))
    · exact .inr (by rw [pow32_zero d a hz]; decide)

end

/-- Settles O53: a NaN operand gives the free NaN, and what is not the free NaN is no NaN. -/
theorem nanResultsAreQuietAndPropagate : Obligations.NaNResultsAreQuietAndPropagate := by
  unfold Obligations.NaNResultsAreQuietAndPropagate
  have hfree : ∀ {r e : F32}, r = e ∨ F32.isNaN r = false → F32.isNaN r = true → r = e := fun h hr =>
    h.resolve_right (by rw [hr]; decide)
  intro d
  refine ⟨freeNaN_isNaN d, freeNaN_quiet d, fun a b => ⟨fun h => ?_, fun h => ⟨if_pos h, tanh32_nan d h⟩,
    hfree (fadd_freeNaN_or_number d a b), hfree (fsub_freeNaN_or_number d a b), hfree (fmul_freeNaN_or_number d a b),
    hfree (fdiv_freeNaN_or_number d a b), hfree (fmod_freeNaN_or_number d a b), hfree (fround_freeNaN_or_number d a),
    hfree (tanh32_freeNaN_or_number d a), fun ha => hfree (pow32_freeNaN_or_number d a b ha)⟩⟩
  exact ⟨fadd_nan d h, fsub_nan d h, fmul_nan d h, fdiv_nan d h, fmod_invalid d (h.imp_right .inl),
    fun hz => pow32_nan d hz h⟩

end Sys2Proof.Machine
end

section
/-! PROOFS. A NaN in a register the engine feeds back (spec/40_numerics.md R156): in `PHASE`
(spec/42_pitch_shift.md R183) and in the history of a filter stage (spec/44_eq7.md R204). -/

namespace Sys2Proof.Machine

/-! ### NaN operands give NaN results -/

section
variable (d : Draw) {a b : F32} (h : F32.isNaN a = true ∨ F32.isNaN b = true)
include h

theorem isNaN_fadd : F32.isNaN (fadd d a b) = true := by rw [fadd_nan d h, freeNaN_isNaN]

theorem isNaN_fsub : F32.isNaN (fsub d a b) = true := by rw [fsub_nan d h, freeNaN_isNaN]

theorem isNaN_fmul : F32.isNaN (fmul d a b) = true := by rw [fmul_nan d h, freeNaN_isNaN]

end

/-- A condition on the state that every iteration keeps, and a condition on the cell each iteration writes. -/
theorem SampleBody.loop_invariant {body : Nat → State → State} (h : SampleBody body) (I : State → Prop) (Q : F32 → Prop)
    (hstep : ∀ i t, I t → I (body i t) ∧ Q ((body i t).readOut i)) {s : State} (h0 : I s) (n : Nat) :
    I (forSamples body n s) ∧ ∀ i < n, Q ((forSamples body n s).readOut i) := by
  have hI : ∀ m, I (forSamples body m s) := fun m =>
    forSamples_induct body (fun _ => I) m s h0 fun i t _ ht => (hstep i t ht).1
  refine ⟨hI n, fun i hi => ?_⟩
  rw [h.readOut_done s n i hi]
  exact (hstep i _ (hI i)).2

/-! ### `PSHIFT` -/

/-- With a NaN in `PHASE` the sum is a NaN, so the correction does not fire. -/
theorem pshiftSample_nan (pf : F32) (i : Nat) {t : State} (h : F32.isNaN t.phase = true) :
    F32.isNaN (pshiftSample pf i t).phase = true ∧ (pshiftSample pf i t).prev = t.prev ∧
      F32.isNaN ((pshiftSample pf i t).readOut i) = true := by
  have hsum : F32.isNaN (fadd (t.draw i 0) t.phase pf) = true := isNaN_fadd _ (.inl h)
  have hfire : ¬fge (fadd (t.draw i 0) t.phase pf) oneF = true := by rw [(compare_nan (.inl hsum)).1]; decide
  have hphase : F32.isNaN (pshiftSample pf i t).phase = true := by rw [pshiftSample_phase, if_neg hfire, hsum]
  refine ⟨hphase, by rw [pshiftSample_prev, if_neg hfire], ?_⟩
  rw [pshiftSample_readOut]
  exact isNaN_fadd _ (.inr (isNaN_fmul _ (.inr hphase)))

/-- Settles O25: every iteration keeps the NaN and `PREV`, and writes a NaN. -/
theorem pshiftNaNPhaseIsPermanent : Obligations.PshiftNaNPhaseIsPermanent := by
  unfold Obligations.PshiftNaNPhaseIsPermanent
  intro s pf h
  obtain ⟨⟨hphase, hprev⟩, hout⟩ := (pshiftSample_body pf).loop_invariant
    (fun t => F32.isNaN t.phase = true ∧ t.prev = s.prev) (fun v => F32.isNaN v = true)
    (fun i t ⟨hnan, hheld⟩ =>
      have ⟨hphase, hprev, hout⟩ := pshiftSample_nan pf i hnan
      ⟨⟨hphase, hprev.trans hheld⟩, hout⟩) ⟨h, rfl⟩ s.cfgN
  exact ⟨_, execPshift_eq pf s, hphase, hprev, hout⟩

/-! ### `EQ7` -/

/-- The feedback of `y1`: a NaN in it is a NaN in the output. -/
theorem biquadOutput_nan_history (d : Nat → Draw) {b : Biquad} (input : F32) (h : F32.isNaN b.y1 = true) :
    F32.isNaN (biquadOutput d b input) = true :=
  isNaN_fsub _ (.inl (isNaN_fsub _ (.inr (isNaN_fmul _ (.inr h)))))

theorem biquadOutput_nan_input (d : Nat → Draw) (b : Biquad) {input : F32} (h : F32.isNaN input = true) :
    F32.isNaN (biquadOutput d b input) = true :=
  isNaN_fsub _ (.inl (isNaN_fsub _ (.inl (isNaN_fadd _ (.inl (isNaN_fadd _ (.inl (isNaN_fmul _ (.inr h)))))))))

/-- Whether stage `k` has a NaN in `y1`. -/
def State.NaNHistory (s : State) (k : Fin 7) : Prop := F32.isNaN s.bq[k].y1 = true

/-- A biquad step leaves its output in `y1` of its own stage, and every other stage as it was. -/
theorem biquadStep_y1 (i : Nat) (j k : Fin 7) (v : F32 × State) :
    (biquadStep i j v).2.bq[k].y1 = if j = k then (biquadStep i j v).1 else v.2.bq[k].y1 := by
  rw [biquadStep_state, State.setBq_bq]
  simp only [Fin.getElem_fin, Vector.getElem_set, Fin.val_inj]
  split <;> rfl

section
variable (i : Nat) {k : Fin 7} {v : F32 × State}

/-- The step of stage `k` finds a NaN in its `y1`. -/
theorem biquadStep_nan_history (h : v.2.NaNHistory k) : F32.isNaN (biquadStep i k v).1 = true :=
  biquadOutput_nan_history _ _ h

theorem biquadStep_nan_input (j : Fin 7) (h : F32.isNaN v.1 = true) : F32.isNaN (biquadStep i j v).1 = true :=
  biquadOutput_nan_input _ _ h

/-- No biquad step takes a NaN out of a `y1`. -/
theorem biquadStep_keeps_nan (j : Fin 7) (h : v.2.NaNHistory k) : (biquadStep i j v).2.NaNHistory k := by
  rw [State.NaNHistory, biquadStep_y1]
  split
  · next hjk => subst hjk; exact biquadStep_nan_history i h
  · exact h

theorem foldl_biquad_keeps_nan (ks : List (Fin 7)) (h : v.2.NaNHistory k) :
    (ks.foldl (fun acc j => biquadStep i j acc) v).2.NaNHistory k := by
  induction ks generalizing v with
  | nil => exact h
  | cons j ks ih => exact ih (biquadStep_keeps_nan i j h)

/-- A NaN sample leaves a NaN in every stage it passes, and comes out a NaN. -/
theorem foldl_biquad_nan_input (ks : List (Fin 7)) (h : F32.isNaN v.1 = true) :
    F32.isNaN (ks.foldl (fun acc j => biquadStep i j acc) v).1 = true ∧
      ∀ j ∈ ks, (ks.foldl (fun acc j => biquadStep i j acc) v).2.NaNHistory j := by
  induction ks generalizing v with
  | nil => exact ⟨h, by simp⟩
  | cons l ks ih =>
    have hout := biquadStep_nan_input i l h
    obtain ⟨hlast, hks⟩ := ih hout
    refine ⟨hlast, List.forall_mem_cons.mpr ⟨foldl_biquad_keeps_nan i ks ?_, hks⟩⟩
    rw [State.NaNHistory, biquadStep_y1, if_pos rfl]
    exact hout

end

/-- The stages from `k` on are the end of the fixed order, `k` first (spec/10_state.md R44). -/
theorem stageOrder_from (k : Fin 7) :
    stageOrder = stageOrder.take k ++ k :: stageOrder.drop (k + 1) ∧
      ∀ j, k ≤ j → j = k ∨ j ∈ stageOrder.drop (k + 1) := by
  revert k
  decide

/-- One sample with a NaN in `y1` of stage `k`: stage `k` gives a NaN, which passes every later stage. -/
theorem bank_nan (i : Nat) (x : F32) {s : State} {k : Fin 7} (h : s.NaNHistory k) :
    F32.isNaN (bank i x s).1 = true ∧ ∀ j, k ≤ j → (bank i x s).2.NaNHistory j := by
  obtain ⟨horder, hlater⟩ := stageOrder_from k
  have hbefore := foldl_biquad_keeps_nan i (v := (x, s)) (stageOrder.take k) h
  have hout := biquadStep_nan_history i hbefore
  have hkept := biquadStep_keeps_nan i k hbefore
  rw [bank, horder, List.foldl_append, List.foldl_cons]
  obtain ⟨hlast, hks⟩ := foldl_biquad_nan_input i (stageOrder.drop (k + 1)) hout
  refine ⟨hlast, fun j hj => ?_⟩
  obtain rfl | hmem := hlater j hj
  · exact foldl_biquad_keeps_nan i _ hkept
  · exact hks j hmem

theorem eq7Sample_nan (i : Nat) {s : State} {k : Fin 7} (h : s.NaNHistory k) :
    (∀ j, k ≤ j → (eq7Sample i s).NaNHistory j) ∧ F32.isNaN ((eq7Sample i s).readOut i) = true := by
  obtain ⟨hlast, hstages⟩ := bank_nan i (s.readIn i) h
  rw [eq7Sample_eq, writeOut_readOut_same]
  refine ⟨fun j hj => ?_, hlast⟩
  rw [State.NaNHistory, State.writeOut_bq, State.setBq_bq]
  exact hstages j hj

/-- Settles O37: every iteration keeps the NaN in stage `k`, spreads it to the later stages and writes a NaN. -/
theorem eq7NaNHistoryIsPermanent : Obligations.Eq7NaNHistoryIsPermanent := by
  unfold Obligations.Eq7NaNHistoryIsPermanent
  intro s gains k hg h
  have hloop := eq7Sample_body.loop_invariant (fun t => t.NaNHistory k) (fun v => F32.isNaN v = true)
    (fun i t ht => have ⟨hstages, hout⟩ := eq7Sample_nan i ht; ⟨hstages k le_rfl, hout⟩) h
  refine ⟨_, exec_eq7_seven hg, (hloop s.cfgN).1, fun hpos => ?_, (hloop s.cfgN).2⟩
  obtain ⟨n, hn⟩ := Nat.exists_eq_succ_of_ne_zero hpos.ne'
  rw [hn]
  exact (eq7Sample_nan n (hloop n).1).1

end Sys2Proof.Machine
end

section
/-! PROOFS. The biquad cell (spec/41_biquad.md): what one step leaves in the stages (R161), and the peaking design at
0 dB (R165). -/

namespace Sys2Proof.Machine

/-! ### The biquad step -/

/-- A biquad step shifts the history of its own stage and leaves every other stage as it was. -/
theorem biquadStep_bq (i : Nat) (j k : Fin 7) (v : F32 × State) :
    (biquadStep i j v).2.bq[k] = if j = k then v.2.bq[j].shift v.1 (biquadStep i j v).1 else v.2.bq[k] := by
  rw [biquadStep_state, State.setBq_bq]
  simp only [Fin.getElem_fin, Vector.getElem_set, Fin.val_inj]
  rfl

/-- Settles O33: the sum is the output's definition, and the state after the step differs in the stage's history
alone. -/
theorem biquadStepShiftsItsStage : Obligations.BiquadStepShiftsItsStage := by
  unfold Obligations.BiquadStepShiftsItsStage
  intro s i k input
  refine ⟨rfl, ?_, fun j hj => ?_, biquadStep_state i k (input, s)⟩
  · rw [biquadStep_bq, if_pos rfl]; rfl
  · rw [biquadStep_bq, if_neg hj.symm]

/-! ### The gain at 0 dB -/

theorem Fixed.expSeries_zero (x : Fixed) (n k term acc : Nat) : x.expSeries 0 n k term acc = acc := by
  induction n generalizing k term acc with
  | zero => rfl
  | succ n ih => rw [Fixed.expSeries, ih, Nat.mul_zero, Nat.zero_div, Nat.add_zero]

/-- e^0 = 1. -/
theorem Fixed.expRatio_zero (x : Fixed) : x.expRatio false 0 = ⟨x.one, x.one⟩ := by
  simp [Fixed.expRatio, Fixed.expSmall, Fixed.expSeries_zero]

/-- The number that stands for 1 is the unit of the fixed-point product. -/
theorem Fixed.mul_by_one {x : Fixed} (h : 0 < x.one) (a : Int) : x.mul a x.one = a :=
  Int.mul_ediv_cancel a (by omega)

theorem designFix_one_pos : 0 < designFix.one := by
  simp only [designFix, Nat.two_pow_pos]

theorem designGainDb_zero : designGainDb 0 = 0 := by decide

theorem designDecade_zero : designDecade 0 = some 0 := by decide

theorem designGain_zero (den : Nat) : designGain 0 den = designFix.one := by
  have hunits : F32.units 0 = 0 := by decide
  have hneg : F32.neg 0 = false := by decide
  simp only [designGain, hunits, hneg, Nat.zero_mul, Nat.zero_div, Fixed.expRatio_zero,
    Nat.mul_div_cancel _ designFix_one_pos]

/-! ### A design with equal numerators and denominators -/

/-- A value over itself is exactly 1.0. -/
theorem designRound_self {a : Int} (h : a ≠ 0) : designRound a a = 0x3F800000#32 := by
  have hone : unitsOfMag oneMag = 2 ^ 149 := by decide
  rw [designRound, if_neg h, bne_self_eq_false, Nat.mul_comm, ← hone,
    roundMag_exact oneMag _ (by decide) (Int.natAbs_pos.mpr h)]
  rfl

/-- A row of coefficients that passes its input through (spec/41_biquad.md R165, R172). -/
def FlatCoef (c : Coef) : Prop := c.b0 = 0x3F800000#32 ∧ c.b1 = c.a1 ∧ c.b2 = c.a2

theorem designRow_flat {a0 a1 a2 : Int} {c : Coef} (h : designRow a0 a1 a2 a0 a1 a2 = some c) : FlatCoef c := by
  rw [designRow] at h
  split at h
  · cases h
  · next ha =>
    cases h
    exact ⟨designRound_self ha, rfl, rfl⟩

/-- With gain = 10^0 the products with and without the gain are the same. -/
theorem peakingRational_flat {h cosW : Int} {q : F32} {c : Coef} (hc : peakingRational h 0 cosW q = some c) :
    FlatCoef c :=
  designRow_flat hc

/-- With gain = 1 the fixed-point product and quotient by the gain are alpha itself. -/
theorem peakingIrrational_flat {sine cosW : Int} {q : F32} {c : Coef}
    (h : peakingIrrational sine cosW designFix.one q = some c) : FlatCoef c := by
  have hdown (alpha : Int) : alpha * designFix.one / designFix.one = alpha := Fixed.mul_by_one designFix_one_pos alpha
  simp only [peakingIrrational, Fixed.mul_by_one designFix_one_pos, hdown] at h
  exact designRow_flat h

theorem realPeaking_zero_flat {freq rate q : F32} {c : Coef} (h : realPeaking freq rate q 0 = some c) : FlatCoef c := by
  simp only [realPeaking, designGainDb_zero, designDecade_zero, designGain_zero] at h
  split at h
  · cases h
  · split at h
    · next hk =>
      cases hk
      exact peakingRational_flat h
    · exact peakingIrrational_flat h

theorem designPeaking_of_real {freq rate q gainDb : F32} {c : Coef} (h : realPeaking freq rate q gainDb = some c) :
    designPeaking freq rate q gainDb = c := by
  rw [designPeaking, h]

/-- Settles O60: at 0 dB the gain is exactly 1, so numerator and denominator have the same three values. -/
theorem peakingAtZeroGainIsFlat : Obligations.PeakingAtZeroGainIsFlat := by
  unfold Obligations.PeakingAtZeroGainIsFlat
  exact fun _ _ _ _ h => ⟨designPeaking_of_real h, realPeaking_zero_flat h⟩

end Sys2Proof.Machine
end

section
/-! PROOFS. The pitch shifter (spec/42_pitch_shift.md): the block as a run of the per-sample rule (R181), the output where
the correction fires (R182), and the range of `PHASE` (R183). -/

namespace Sys2Proof.Machine

/-! ### The block as a run of the per-sample rule (spec/42_pitch_shift.md R181) -/

/-- The output cells written so far, one iteration further. -/
theorem SampleBody.outputs_succ {body : Nat → State → State} (h : SampleBody body) (n : Nat) (s : State) :
    (List.range (n + 1)).map (forSamples body (n + 1) s).readOut =
      (List.range n).map (forSamples body n s).readOut ++ [(body n (forSamples body n s)).readOut n] := by
  rw [List.range_succ, List.map_append, List.map_singleton, forSamples_succ]
  congr 1
  exact List.map_congr_left fun j hj => h.others n j _ (List.mem_range.mp hj).ne

/-- The rule run over two blocks, the second from the registers and the index the first one ends with. -/
theorem referencePshift_append (d : Nat → Nat → Draw) (pf : F32) (i : Nat) (phase prev : F32) (xs ys : List F32) :
    Reference.pshift d pf i phase prev (xs ++ ys) =
      let first := Reference.pshift d pf i phase prev xs
      let second := Reference.pshift d pf (i + xs.length) first.1 first.2.1 ys
      (second.1, second.2.1, first.2.2 ++ second.2.2) := by
  induction xs generalizing i phase prev with
  | nil => rfl
  | cons x xs ih =>
    simp only [List.cons_append, Reference.pshift, ih, List.length_cons]
    rw [show i + 1 + xs.length = i + (xs.length + 1) by omega]

/-- One iteration is the rule over one sample. -/
theorem pshiftSample_reference (pf : F32) (i : Nat) (t : State) :
    Reference.pshift t.draw pf i t.phase t.prev [t.readIn i] =
      ((pshiftSample pf i t).phase, (pshiftSample pf i t).prev, [(pshiftSample pf i t).readOut i]) := by
  rw [pshiftSample_readOut, pshiftSample_phase, pshiftSample_prev]
  rfl

/-- After `n` iterations the registers and the first `n` output cells are what the rule gives over the first `n` input
cells. -/
theorem pshiftLoop_reference (pf : F32) {s : State} (hp : s.Placed) (n : Nat) (hn : n ≤ s.cfgN) :
    Reference.pshift s.draw pf 0 s.phase s.prev ((List.range n).map s.readIn) =
      ((forSamples (pshiftSample pf) n s).phase, (forSamples (pshiftSample pf) n s).prev,
        (List.range n).map (forSamples (pshiftSample pf) n s).readOut) := by
  have hbody := pshiftSample_body pf
  induction n with
  | zero => rfl
  | succ n ih =>
    have hsample := pshiftSample_reference pf n (forSamples (pshiftSample pf) n s)
    rw [hbody.draw s n (by omega), hbody.readIn s hp n n (by omega) (by omega)] at hsample
    rw [hbody.outputs_succ, List.range_succ, List.map_append, List.map_singleton, referencePshift_append, ih (by omega)]
    simp only [List.length_map, List.length_range, Nat.zero_add, hsample]
    rfl

/-- Settles O22: the loop over the whole block, after which only `STATUS` and the draw counter change. -/
theorem pshiftRunsTheRecurrence : Obligations.PshiftRunsTheRecurrence := by
  unfold Obligations.PshiftRunsTheRecurrence
  intro s pf hp
  have hloop := (pshiftSample_body pf).loop s s.cfgN le_rfl
  refine ⟨_, execPshift_eq pf s, rfl, ?_⟩
  rw [State.inCells, pshiftLoop_reference pf hp s.cfgN le_rfl, State.outCells, State.setStatus_cfgN,
    State.nextDraws_cfgN, hloop.cfgN]
  rfl

/-! ### Rounded sums and differences within bounds (spec/40_numerics.md R132) -/

theorem units_lt_of_finite {a : F32} (h : F32.isFinite a = true) : F32.units a < 33554431 * 2 ^ 252 :=
  lt_of_le_of_lt ((unitsOfMag_le_iff _ maxFiniteMag).mpr (Nat.le_of_lt_succ (of_decide_eq_true h))) (by decide)

/-- A result rounded once stays between finite values that the exact result lies between: either of them beyond which it
fell would be nearer. -/
theorem isRounded_between {r lo hi : F32} {zeroNeg : Bool} {n : Int} (h : Reference.IsRounded r zeroNeg n 1)
    (hlo : F32.isFinite lo = true) (hhi : F32.isFinite hi = true) (hle : F32.toUnits lo ≤ n) (hge : n ≤ F32.toUnits hi) :
    F32.isFinite r = true ∧ F32.toUnits lo ≤ F32.toUnits r ∧ F32.toUnits r ≤ F32.toUnits hi := by
  obtain ⟨hnan, hinf, hnear, -, -⟩ := h
  have hfinite : F32.isFinite r = true := by
    have hlo' := units_lt_of_finite hlo
    have hhi' := units_lt_of_finite hhi
    rw [← F32.toUnits_natAbs] at hlo' hhi'
    refine (F32.isFinite_iff r).mpr ⟨hnan, Bool.eq_false_iff.mpr fun h => ?_⟩
    have := hinf.mp h
    omega
  have hnearest : ∀ x : F32, F32.isFinite x = true → F32.toUnits x ≠ F32.toUnits r →
      (F32.toUnits r - n).natAbs ≤ (F32.toUnits x - n).natAbs := fun x hx hne => by
    have := hnear hfinite x hx hne
    simp only [Reference.distance, Nat.cast_one, Int.mul_one] at this
    omega
  have hlow := hnearest lo hlo
  have hhigh := hnearest hi hhi
  exact ⟨hfinite, by omega, by omega⟩

section
variable (d : Draw) {a b lo hi : F32} (ha : F32.isFinite a = true) (hb : F32.isFinite b = true)
  (hlo : F32.isFinite lo = true) (hhi : F32.isFinite hi = true)
include ha hb hlo hhi

theorem fadd_between (hle : F32.toUnits lo ≤ F32.toUnits a + F32.toUnits b)
    (hge : F32.toUnits a + F32.toUnits b ≤ F32.toUnits hi) :
    F32.isFinite (fadd d a b) = true ∧ F32.toUnits lo ≤ F32.toUnits (fadd d a b) ∧
      F32.toUnits (fadd d a b) ≤ F32.toUnits hi := by
  rw [fadd_finite d a b ha hb]
  exact isRounded_between (isRounded_roundUnits _ _) hlo hhi hle hge

theorem fsub_between (hle : F32.toUnits lo ≤ F32.toUnits a - F32.toUnits b)
    (hge : F32.toUnits a - F32.toUnits b ≤ F32.toUnits hi) :
    F32.isFinite (fsub d a b) = true ∧ F32.toUnits lo ≤ F32.toUnits (fsub d a b) ∧
      F32.toUnits (fsub d a b) ≤ F32.toUnits hi := by
  rw [fsub_finite d a b ha hb]
  exact isRounded_between (isRounded_roundUnits _ _) hlo hhi hle hge

end

theorem toUnits_zero : F32.toUnits 0 = 0 := by decide

theorem toUnits_oneF : F32.toUnits oneF = 2 ^ 149 := by decide

/-! ### The output where the correction fires (spec/42_pitch_shift.md R182) -/

/-- A finite value less itself is +0.0. -/
theorem fsub_self (d : Draw) {x : F32} (hx : F32.isFinite x = true) : fsub d x x = 0 := by
  rw [fsub_finite d x x hx hx, Int.sub_self, Bool.and_not_self]
  decide

/-- +0.0 times a finite value without a sign is +0.0. -/
theorem fmul_zero_left (d : Draw) {b : F32} (hb : F32.isFinite b = true) (hneg : F32.neg b = false) :
    fmul d 0 b = 0 := by
  rw [fmul_finite d 0 b (by decide) hb, hneg, show F32.units 0 = 0 by decide, Nat.zero_mul,
    roundMag_zero _ (by positivity)]
  decide

/-- A zero value is one of the two zeros. -/
theorem eq_zero_or_negZero {x : F32} (h : F32.isZero x = true) : x = 0 ∨ x = 0x80000000#32 := by
  rw [← packF32_self x, (F32.isZero_iff x).mp h]
  cases F32.neg x
  · exact .inl rfl
  · exact .inr rfl

theorem neg_of_toUnits_ne_zero {x : F32} (h : F32.toUnits x ≠ 0) : F32.neg x = decide (F32.toUnits x < 0) := by
  rw [F32.toUnits] at h ⊢
  cases hx : F32.neg x
  · simp
  · simp only [hx, if_true] at h
    exact (decide_eq_true (by rw [if_pos rfl]; omega)).symm

/-- Adding +0.0 changes no finite value but -0.0. -/
theorem fadd_zero_right (d : Draw) {x : F32} (hx : F32.isFinite x = true) :
    fadd d x 0 = if x = 0x80000000#32 then 0 else x := by
  by_cases hz : F32.isZero x = true
  · obtain rfl | rfl := eq_zero_or_negZero hz <;> rfl
  · have hne : F32.toUnits x ≠ 0 :=
      (toUnits_eq_zero x).not.mpr (units_pos (Bool.eq_false_iff.mpr hz)).ne'
    rw [if_neg (by rintro rfl; exact hz (by decide)), fadd_finite d x 0 hx (by decide), toUnits_zero, Int.add_zero,
      roundUnits, if_neg hne, ← neg_of_toUnits_ne_zero hne, F32.toUnits_natAbs, packF32_roundMag_units hx]

/-- The corrected phase of a finite sum is finite and has no sign, at an exact 1.0 as well. -/
theorem fsub_one_of_fge (d : Draw) {a : F32} (ha : F32.isFinite a = true) (h : fge a oneF = true) :
    F32.isFinite (fsub d a oneF) = true ∧ F32.neg (fsub d a oneF) = false := by
  have hle := (fge_finite ha (by decide)).mp h
  have hone := toUnits_oneF
  refine ⟨(fsub_between d (lo := 0) ha (by decide) (by decide) ha (by rw [toUnits_zero]; omega) (by omega)).1, ?_⟩
  obtain ⟨-, -, -, hneg, -⟩ := isRounded_roundUnits (F32.neg a && !F32.neg oneF) (F32.toUnits a - F32.toUnits oneF)
  rw [fsub_finite d a oneF ha (by decide), hneg, neg_of_toUnits_ne_zero (by omega : F32.toUnits a ≠ 0),
    decide_eq_false (by omega : ¬F32.toUnits a < 0), decide_eq_false (by omega), Bool.false_and, ite_self]

/-- Settles O24: the held sample is then the sample itself, so the interpolation adds +0.0 to it. -/
theorem pshiftOutputIsInputWhenItFires : Obligations.PshiftOutputIsInputWhenItFires := by
  unfold Obligations.PshiftOutputIsInputWhenItFires
  intro s pf i hfire hsum hx
  obtain ⟨hfinite, hneg⟩ := fsub_one_of_fge (s.draw i 1) hsum hfire
  have hprev : (pshiftSample pf i s).prev = s.readIn i := by rw [pshiftSample_prev, if_pos hfire]
  refine ⟨hprev, ?_⟩
  rw [pshiftSample_readOut, hprev, pshiftSample_phase, if_pos hfire, fsub_self _ hx, fmul_zero_left _ hfinite hneg,
    fadd_zero_right _ hx]

/-! ### The range of `PHASE` (spec/42_pitch_shift.md R183) -/

/-- The largest value below 1.0. -/
def belowOne : F32 := 0x3F7FFFFF

/-- The largest value below 2.0. -/
def belowTwo : F32 := 0x3FFFFFFF

theorem toUnits_belowOne : F32.toUnits belowOne = 16777215 * 2 ^ 125 := by decide

theorem toUnits_belowTwo : F32.toUnits belowTwo = 16777215 * 2 ^ 126 := by decide

theorem F32.key_natAbs (a : F32) : (F32.key a).natAbs = F32.mag a := by
  rw [F32.key]; split <;> simp

/-- A value in [0, 1), by the comparisons. -/
def F32.InUnit (a : F32) : Prop := fge a 0 = true ∧ flt a oneF = true

/-- There is no value between the largest one below 1.0 and 1.0. -/
theorem inUnit_iff (a : F32) :
    F32.InUnit a ↔ F32.isFinite a = true ∧ 0 ≤ F32.toUnits a ∧ F32.toUnits a ≤ F32.toUnits belowOne := by
  have hzero : F32.key 0 = 0 := by decide
  have hone : F32.key oneF = 0x3F800000 := by decide
  have hbelow : F32.key belowOne = 0x3F7FFFFF := by decide
  constructor
  · rintro ⟨hge, hlt⟩
    obtain ⟨hnan, -, hlow⟩ := fge_true hge
    rw [flt_of_not_nan hnan (by decide), decide_eq_true_eq] at hlt
    have hfinite : F32.isFinite a = true :=
      decide_eq_true (by rw [← F32.key_natAbs, infMag]; omega)
    exact ⟨hfinite, (fge_finite hfinite (by decide)).mp hge, (toUnits_le_iff _ _).mpr (by omega)⟩
  · rintro ⟨hfinite, hlow, hhigh⟩
    rw [toUnits_le_iff] at hhigh
    refine ⟨(fge_finite hfinite (by decide)).mpr hlow, ?_⟩
    rw [flt_of_not_nan (not_nan_of_finite hfinite) (by decide), decide_eq_true_eq]
    omega

/-- One iteration keeps `PHASE` in [0, 1): the rounded sum is below 2.0, and what is left of it after the correction is
below 1.0. -/
theorem pshiftSample_inUnit {pf : F32} (i : Nat) {t : State} (hpf : F32.InUnit pf) (ht : F32.InUnit t.phase) :
    F32.InUnit (pshiftSample pf i t).phase := by
  rw [inUnit_iff] at hpf ht
  obtain ⟨hpfFinite, hpfLow, hpfHigh⟩ := hpf
  obtain ⟨hfinite, hlow, hhigh⟩ := ht
  rw [toUnits_belowOne] at hpfHigh hhigh
  have hsum := fadd_between (t.draw i 0) (lo := 0) (hi := belowTwo) hfinite hpfFinite (by decide) (by decide)
    (by rw [toUnits_zero]; omega) (by rw [toUnits_belowTwo]; omega)
  rw [pshiftSample_phase]
  generalize fadd (t.draw i 0) t.phase pf = sum at hsum ⊢
  obtain ⟨hsumFinite, hsumLow, hsumHigh⟩ := hsum
  split
  · next hfire =>
    have hge := (fge_finite hsumFinite (by decide)).mp hfire
    rw [toUnits_oneF] at hge
    rw [toUnits_belowTwo] at hsumHigh
    exact (inUnit_iff _).mpr (fsub_between _ (lo := 0) hsumFinite (by decide) (by decide) (by decide)
      (by rw [toUnits_zero, toUnits_oneF]; omega) (by rw [toUnits_belowOne, toUnits_oneF]; omega))
  · next hfire =>
    exact ⟨(fge_finite hsumFinite (by decide)).mpr hsumLow, by
      rw [flt_eq_not_fge (not_nan_of_finite hsumFinite) (by decide), Bool.eq_false_iff.mpr hfire]; rfl⟩

/-- Settles O26: the loop's invariant. -/
theorem pshiftPhaseStaysBelowOne : Obligations.PshiftPhaseStaysBelowOne := by
  unfold Obligations.PshiftPhaseStaysBelowOne
  intro s pf hpfLow hpfHigh hlow hhigh
  exact ⟨_, execPshift_eq pf s, forSamples_induct (pshiftSample pf) (fun _ t => F32.InUnit t.phase) s.cfgN s
    ⟨hlow, hhigh⟩ fun i _ _ => pshiftSample_inUnit i ⟨hpfLow, hpfHigh⟩⟩

end Sys2Proof.Machine
end

section
/-! PROOFS. The bass booster (spec/43_bass_boost.md): each output cell as a function of its input cell (R191), the bounds
of the output (R192), and the command at 0 dB (R193). -/

namespace Sys2Proof.Machine

/-! ### The output cells (spec/43_bass_boost.md R191) -/

/-- After the block an output cell holds what its own iteration made of the input cell the command found. -/
theorem bassLoop_readOut (bf : F32) {s : State} (hp : s.Placed) {i : Nat} (hi : i < s.cfgN) :
    (forSamples (bassSample bf) s.cfgN s).readOut i = tanh32 (s.draw i 3) (fmul (s.draw i 2) (s.readIn i) bf) := by
  have hbody := bassSample_body bf
  rw [hbody.readOut_done s s.cfgN i hi, bassSample, writeOut_readOut_same, hbody.draw s i hi.le,
    hbody.readIn s hp i i hi.le hi]

/-- Settles O27: after the loop only `STATUS` and the draw counter change. -/
theorem bassIsPointwise : Obligations.BassIsPointwise := by
  unfold Obligations.BassIsPointwise
  intro s db hp
  exact ⟨_, execBass_eq db s, rfl, fun i hi => bassLoop_readOut (bassFactor db s) hp hi⟩

/-- Settles O28: TANH-RANGE. -/
theorem bassOutputIsBounded : Obligations.BassOutputIsBounded := by
  unfold Obligations.BassOutputIsBounded
  intro s db i hp hi hnan
  obtain ⟨-, -, -, -, hlow, hhigh, -⟩ := tanhNamedProperties (s.draw i 3) _ hnan
  rw [← bassLoop_readOut (bassFactor db s) hp hi] at hlow hhigh
  exact ⟨_, execBass_eq db s, hlow, hhigh⟩

/-! ### The boost factor at 0 dB (spec/43_bass_boost.md R193) -/

theorem fdiv_zero_left (d : Draw) {a b : F32} (ha : F32.isZero a = true) (hb : F32.isFinite b = true)
    (hz : F32.isZero b = false) : fdiv d a b = packF32 (F32.neg a != F32.neg b) 0 := by
  rw [fdiv_finite d a b (finite_of_zero ha) hb hz, (units_eq_zero a).mpr ha, Nat.zero_mul, roundMag_zero _ (units_pos hz)]

theorem bassFactor_zero {db : F32} (h : F32.isZero db = true) (s : State) : bassFactor db s = oneF := by
  rw [bassFactor, fdiv_zero_left _ h (by decide) (by decide)]
  exact pow32_zero _ _ (isZero_packF32_zero _).1

/-- 1.0 is the unit of the multiplication: the product is exact, and that of an infinity has its sign. -/
theorem fmul_one (d : Draw) {x : F32} (h : F32.isNaN x = false) : fmul d x oneF = x := by
  have hsign : (F32.neg x != F32.neg oneF) = F32.neg x := Bool.xor_false _
  by_cases hinf : F32.isInf x = true
  · rw [(fmul_inf d hinf (by decide) (by decide)).1, hsign, ← (F32.isInf_iff x).mp hinf, packF32_self]
  · have hfinite : F32.isFinite x = true := (F32.isFinite_iff x).mpr ⟨h, Bool.eq_false_iff.mpr hinf⟩
    have hmag : F32.mag x ≤ infMag := (of_decide_eq_true hfinite : F32.mag x < infMag).le
    rw [fmul_finite d x oneF hfinite (by decide), hsign, show F32.units oneF = 2 ^ 149 by decide, F32.units,
      roundMag_exact _ _ hmag (by positivity), packF32_self]

/-- Settles O29: the factor is POW-ZERO, and multiplying by it keeps the sample. -/
theorem bassAtZeroGainIsTanh : Obligations.BassAtZeroGainIsTanh := by
  unfold Obligations.BassAtZeroGainIsTanh
  intro s db hp hzero
  refine ⟨bassFactor_zero hzero s, _, execBass_eq db s, fun i hi hnan => ?_⟩
  rw [State.setStatus_readOut, State.nextDraws_readOut, bassLoop_readOut _ hp hi, bassFactor_zero hzero s, fmul_one _ hnan]

end Sys2Proof.Machine
end

section
/-! PROOFS. The seven-band equalizer (spec/44_eq7.md): the wrong gain count (R201), the gains (R203), the block as a run
of the cascade (R202, spec/41_biquad.md R163), and the same block stage by stage (R202). -/

namespace Sys2Proof.Machine

/-! ### The operands (spec/44_eq7.md R201, R203) -/

/-- Settles O31: the count is tested before anything else. -/
theorem eq7WrongCountRaises : Obligations.Eq7WrongCountRaises := by
  unfold Obligations.Eq7WrongCountRaises
  exact fun _ _ h => exec_eq7_other h

/-- Settles O32: with seven gains the next state does not mention them. -/
theorem eq7GainsHaveNoEffect : Obligations.Eq7GainsHaveNoEffect := by
  unfold Obligations.Eq7GainsHaveNoEffect
  exact fun _ _ _ h h' => (exec_eq7_seven h).trans (exec_eq7_seven h').symm

/-! ### One sample through the cascade (spec/41_biquad.md R163) -/

/-- The stages a sample does not pass keep their history. -/
theorem foldl_biquad_other (i : Nat) (ks : List (Fin 7)) (v : F32 × State) {k : Fin 7} (hk : k ∉ ks) :
    (ks.foldl (fun acc j => biquadStep i j acc) v).2.bq[k] = v.2.bq[k] := by
  induction ks generalizing v with
  | nil => rfl
  | cons j ks ih =>
    obtain ⟨hne, hks⟩ := not_or.mp (List.mem_cons.not.mp hk)
    rw [List.foldl_cons, ih _ hks, biquadStep_bq, if_neg (Ne.symm hne)]

/-- A biquad step leaves the free values alone. -/
theorem biquadStep_draws (i : Nat) (k : Fin 7) (v : F32 × State) :
    Reference.biquadDraws (biquadStep i k v).2 = Reference.biquadDraws v.2 := by
  rw [biquadStep_state]
  rfl

/-- The output of a biquad step, with the reference's free values. -/
theorem biquadStep_output (i : Nat) (k : Fin 7) (v : F32 × State) :
    (biquadStep i k v).1 = biquadOutput (Reference.biquadDraws v.2 i k) v.2.bq[k] v.1 := by
  rw [biquadStep]
  rfl

/-- A sample through consecutive stages from `k` on is the reference cascade over these stages. -/
theorem foldl_biquad_reference (i k : Nat) (ks : List (Fin 7)) (v : F32 × State)
    (hks : ks.map Fin.val = List.range' k ks.length) :
    Reference.cascade (Reference.biquadDraws v.2 i) k (ks.map fun j => v.2.bq[j]) v.1 =
      (ks.map fun j => (ks.foldl (fun acc j => biquadStep i j acc) v).2.bq[j],
        (ks.foldl (fun acc j => biquadStep i j acc) v).1) := by
  induction ks generalizing k v with
  | nil => rfl
  | cons j ks ih =>
    obtain ⟨rfl, hrest⟩ := List.cons.inj hks
    have hj : j ∉ ks := fun hmem => by
      have := List.mem_map_of_mem (f := Fin.val) hmem
      rw [hrest, List.mem_range'_1] at this
      omega
    have hlater : (ks.map fun l => (biquadStep i j v).2.bq[l]) = ks.map fun l => v.2.bq[l] :=
      List.map_congr_left fun l hl => by rw [biquadStep_bq, if_neg (ne_of_mem_of_not_mem hl hj).symm]
    have hcascade := ih _ (biquadStep i j v) hrest
    rw [biquadStep_draws, hlater] at hcascade
    rw [List.map_cons, List.map_cons, List.foldl_cons, foldl_biquad_other i ks _ hj, biquadStep_bq, if_pos rfl]
    simp only [Reference.cascade, ← biquadStep_output, hcascade]

/-- The fixed order lists the seven stages as the table of stages does (spec/10_state.md R44). -/
theorem map_stageOrder (bq : Vector Biquad 7) : (stageOrder.map fun k => bq[k]) = bq.toList := by
  rw [show stageOrder = List.finRange 7 from rfl, ← List.ofFn_eq_map, ← Vector.toList_ofFn]
  exact congrArg Vector.toList Vector.ofFn_getElem

/-- `BANK` is the reference cascade over the seven stages (spec/41_biquad.md R163). -/
theorem bank_reference (i : Nat) (x : F32) (s : State) :
    Reference.cascade (Reference.biquadDraws s i) 0 s.bq.toList x = ((bank i x s).2.bq.toList, (bank i x s).1) := by
  rw [← map_stageOrder, ← map_stageOrder]
  exact foldl_biquad_reference i 0 stageOrder (x, s) rfl

/-! ### The block sample by sample (spec/44_eq7.md R202) -/

/-- The rule run over two blocks, the second from the histories and the index the first one ends with. -/
theorem sampleMajor_append (d : Nat → Nat → Nat → Draw) (i : Nat) (bs : List Biquad) (xs ys : List F32) :
    Reference.sampleMajor d i bs (xs ++ ys) =
      let first := Reference.sampleMajor d i bs xs
      let second := Reference.sampleMajor d (i + xs.length) first.1 ys
      (second.1, first.2 ++ second.2) := by
  induction xs generalizing i bs with
  | nil => rfl
  | cons x xs ih =>
    rw [List.length_cons, Nat.add_comm xs.length, ← Nat.add_assoc]
    simp only [List.cons_append, Reference.sampleMajor, ih]

/-- One iteration is the rule over one sample. -/
theorem eq7Sample_reference (i : Nat) (t : State) :
    Reference.sampleMajor (Reference.biquadDraws t) i t.bq.toList [t.readIn i] =
      ((eq7Sample i t).bq.toList, [(eq7Sample i t).readOut i]) := by
  rw [eq7Sample_eq, writeOut_readOut_same, State.writeOut_bq, State.setBq_bq]
  simp only [Reference.sampleMajor, bank_reference]

theorem biquadDraws_congr {s t : State} (h : t.draw = s.draw) : Reference.biquadDraws t = Reference.biquadDraws s := by
  unfold Reference.biquadDraws
  rw [h]

/-- After `n` iterations the stages and the first `n` output cells are what the rule gives over the first `n` input
cells. -/
theorem eq7Loop_reference {s : State} (hp : s.Placed) (n : Nat) (hn : n ≤ s.cfgN) :
    Reference.sampleMajor (Reference.biquadDraws s) 0 s.bq.toList ((List.range n).map s.readIn) =
      ((forSamples eq7Sample n s).bq.toList, (List.range n).map (forSamples eq7Sample n s).readOut) := by
  induction n with
  | zero => rfl
  | succ n ih =>
    have hsample := eq7Sample_reference n (forSamples eq7Sample n s)
    rw [biquadDraws_congr (eq7Sample_body.draw s n (by omega)), eq7Sample_body.readIn s hp n n (by omega) (by omega)]
      at hsample
    rw [eq7Sample_body.outputs_succ, List.range_succ, List.map_append, List.map_singleton, sampleMajor_append,
      ih (by omega), List.length_map, List.length_range, Nat.zero_add]
    simp only [hsample]
    rfl

/-- Settles O34: the loop over the whole block, after which only `STATUS` and the draw counter change. -/
theorem eq7RunsTheCascade : Obligations.Eq7RunsTheCascade := by
  unfold Obligations.Eq7RunsTheCascade
  intro s gains hp hg
  refine ⟨_, exec_eq7_seven hg, rfl, ?_⟩
  rw [State.inCells, eq7Loop_reference hp s.cfgN le_rfl, State.outCells, State.setStatus_cfgN, State.nextDraws_cfgN,
    (eq7Sample_body.loop s s.cfgN le_rfl).cfgN]
  rfl

/-! ### The block stage by stage (spec/44_eq7.md R202) -/

/-- The stages from `k + 1` on, counted from `k`. -/
theorem cascade_succ (d : Nat → Nat → Draw) (k : Nat) (bs : List Biquad) (v : F32) :
    Reference.cascade d (k + 1) bs v = Reference.cascade (fun l => d (l + 1)) k bs v := by
  induction bs generalizing k v with
  | nil => rfl
  | cons b bs ih => simp only [Reference.cascade, ih]

/-- The block stage by stage from stage `k + 1` on, counted from `k`. -/
theorem stageMajor_succ (d : Nat → Nat → Nat → Draw) (k : Nat) (bs : List Biquad) (xs : List F32) :
    Reference.stageMajor d (k + 1) bs xs = Reference.stageMajor (fun i l => d i (l + 1)) k bs xs := by
  induction bs generalizing k xs with
  | nil => rfl
  | cons b bs ih => simp only [Reference.stageMajor, ih]

theorem sampleMajor_nil (d : Nat → Nat → Nat → Draw) (i : Nat) (xs : List F32) :
    Reference.sampleMajor d i [] xs = ([], xs) := by
  induction xs generalizing i with
  | nil => rfl
  | cons x xs ih => simp only [Reference.sampleMajor, Reference.cascade, ih]

/-- The loop interchange for the first stage: it may run over the whole block before the later stages see a sample. -/
theorem sampleMajor_cons (d : Nat → Nat → Nat → Draw) (i : Nat) (b : Biquad) (bs : List Biquad) (xs : List F32) :
    Reference.sampleMajor d i (b :: bs) xs =
      let first := Reference.stageRun (fun j => d j 0) i b xs
      let later := Reference.sampleMajor (fun j l => d j (l + 1)) i bs first.2
      (first.1 :: later.1, later.2) := by
  induction xs generalizing i b bs with
  | nil => rfl
  | cons x xs ih => simp only [Reference.sampleMajor, Reference.cascade, Reference.stageRun, ih, cascade_succ]

/-- Stage after stage, the loops over samples and stages are interchanged. -/
theorem stageMajor_eq_sampleMajor (d : Nat → Nat → Nat → Draw) (bs : List Biquad) (xs : List F32) :
    Reference.stageMajor d 0 bs xs = Reference.sampleMajor d 0 bs xs := by
  induction bs generalizing d xs with
  | nil => exact (sampleMajor_nil d 0 xs).symm
  | cons b bs ih => rw [sampleMajor_cons, Reference.stageMajor, stageMajor_succ, ih]

/-- Settles O35: by the interchange, from what the command leaves sample by sample. -/
theorem eq7StageByStage : Obligations.Eq7StageByStage := by
  unfold Obligations.Eq7StageByStage
  intro s gains hp hg
  obtain ⟨t, ht, -, hcells⟩ := eq7RunsTheCascade s gains hp hg
  exact ⟨t, ht, hcells.trans (stageMajor_eq_sampleMajor ..).symm⟩

end Sys2Proof.Machine
end

section
/-! PROOFS. The bit-crusher and downsampler (spec/45_lofi.md): the block as a recurrence over the output cells (R211),
the hold pattern of every factor (R214), and the command with one bit and no downsampling (R216). -/

namespace Sys2Proof.Machine

/-! ### The downsample decision (spec/45_lofi.md R214) -/

/-- The decision reads nothing of the state but its free values. -/
theorem lofiFresh_congr {s t : State} (h : t.draw = s.draw) (dsf : F32) (i : Nat) :
    lofiFresh dsf i t = lofiFresh dsf i s := by
  rw [lofiFresh, lofiFresh, h]

theorem flt_one_iff {r : F32} (hfin : F32.isFinite r = true) (hneg : F32.neg r = false) :
    flt r oneF = true ↔ F32.units r < 2 ^ 149 := by
  obtain ⟨-, hfinite, -⟩ := comparisonsFollowRealValue r oneF
  have hunits : F32.toUnits r = (F32.units r : Int) := by rw [F32.toUnits, hneg]; rfl
  rw [(hfinite hfin (by decide)).2, toUnits_oneF, hunits]
  omega

section
variable (s : State) {i : Nat} {d : F32}

theorem lofiFresh_finite_iff (hi : i ≤ 16777216) (hd : F32.isFinite d = true) (hz : F32.isZero d = false) :
    lofiFresh d i s = true ↔ i * 2 ^ 149 % F32.units d < 2 ^ 149 := by
  obtain ⟨hunits, hneg, hfin⟩ := indexConversionIsExact i hi
  obtain ⟨hremainder, -⟩ := fmodIsTheExactRemainder (s.draw i 5) (i2f i) d
  obtain ⟨hmodNeg, hmodFin, hmodUnits⟩ := hremainder hfin hd hz
  rw [lofiFresh, flt_one_iff hmodFin (hmodNeg.trans hneg), hmodUnits, hunits]

/-- With a factor of integral magnitude `m` the remainder is the integer `i % m`, below 1.0 only if it is 0. -/
theorem lofiFresh_integral_iff {m : Nat} (hi : i ≤ 16777216) (hm : 1 ≤ m) (hd : F32.isFinite d = true)
    (hunits : F32.units d = m * 2 ^ 149) : lofiFresh d i s = true ↔ i % m = 0 := by
  have hz : F32.isZero d = false := Bool.eq_false_iff.mpr fun h => by
    have := (units_eq_zero d).mpr h
    omega
  rw [lofiFresh_finite_iff s hi hd hz, hunits, Nat.mul_mod_mul_right]
  omega

theorem lofiFresh_inf_iff (hi : i ≤ 16777216) (hd : F32.isInf d = true) : lofiFresh d i s = true ↔ i = 0 := by
  obtain ⟨hunits, hneg, hfin⟩ := indexConversionIsExact i hi
  rw [lofiFresh, fmod_inf _ hfin hd, flt_one_iff hfin hneg, hunits]
  omega

variable (i) in
theorem lofiFresh_zero_or_nan (hd : F32.isZero d = true ∨ F32.isNaN d = true) : lofiFresh d i s = false := by
  rw [lofiFresh, fmod_invalid _ (by tauto)]
  exact (compare_nan (.inl (freeNaN_isNaN _))).2

end

/-- Settles O39, by the class of the factor. -/
theorem lofiHoldPattern : Obligations.LofiHoldPattern := by
  unfold Obligations.LofiHoldPattern
  intro s i d hi
  refine ⟨lofiFresh_finite_iff s hi.le, fun m hm hmax hd => ?_, lofiFresh_inf_iff s hi.le,
    lofiFresh_zero_or_nan s i⟩
  obtain ⟨hunits, -, hfin⟩ := indexConversionIsExact m hmax
  obtain rfl | rfl := hd
  · exact lofiFresh_integral_iff s hi.le hm hfin hunits
  · exact lofiFresh_integral_iff s hi.le hm ((fneg_isFinite _).trans hfin) ((fneg_units _).trans hunits)

/-! ### The output cells (spec/45_lofi.md R211) -/

/-- After the block an output cell holds the sample its own iteration quantized, or else what the cell before it holds:
no later iteration writes that one. -/
theorem lofiLoop_readOut (levels dsf : F32) (s : State) {i : Nat} (hi : i < s.cfgN) :
    (forSamples (lofiSample levels dsf) s.cfgN s).readOut i =
      if lofiFresh dsf i s then lofiQuantize levels ((forSamples (lofiSample levels dsf) i s).readIn i) i s
      else if i = 0 then 0 else (forSamples (lofiSample levels dsf) s.cfgN s).readOut (i - 1) := by
  have hbody := lofiSample_body levels dsf
  have hdraw := hbody.draw s i hi.le
  have hheld (h0 : i ≠ 0) : (forSamples (lofiSample levels dsf) i s).readOut (i - 1) =
      (forSamples (lofiSample levels dsf) s.cfgN s).readOut (i - 1) := by
    rw [hbody.readOut_done s i (i - 1) (by omega), hbody.readOut_done s s.cfgN (i - 1) (by omega)]
  rw [hbody.readOut_done s s.cfgN i hi, lofiSample_eq, writeOut_readOut_same, lofiFresh_congr hdraw,
    lofiQuantize, hdraw]
  split_ifs with hfresh h0
  · rfl
  · rfl
  · exact hheld h0

/-- Settles O38: in placed regions the iterations read the input cells the command found. -/
theorem lofiRunsTheRecurrence : Obligations.LofiRunsTheRecurrence := by
  unfold Obligations.LofiRunsTheRecurrence
  intro s bd dsf hp
  refine ⟨_, execLofi_eq bd dsf s, rfl, fun i hi => ?_⟩
  have hcell := lofiLoop_readOut (lofiLevels bd s) dsf s hi
  rw [(lofiSample_body _ dsf).readIn s hp i i hi.le hi] at hcell
  exact hcell

/-- Settles O40: no iteration is fresh, so iteration 0 writes +0.0 and every later one copies it. -/
theorem lofiZeroOrNaNFactorGivesZeros : Obligations.LofiZeroOrNaNFactorGivesZeros := by
  unfold Obligations.LofiZeroOrNaNFactorGivesZeros
  intro s bd dsf hd
  refine ⟨_, execLofi_eq bd dsf s, fun i hi => ?_⟩
  rw [State.setStatus_readOut, State.nextDraws_readOut]
  induction i with
  | zero => rw [lofiLoop_readOut _ _ _ hi, lofiFresh_zero_or_nan s 0 hd]; rfl
  | succ i ih =>
    rw [lofiLoop_readOut _ _ _ hi, lofiFresh_zero_or_nan s (i + 1) hd]
    exact ih (by omega)

/-! ### One bit and no downsampling (spec/45_lofi.md R216) -/

/-- One bit gives the levels 2.0 - 1.0. -/
theorem lofiLevels_one (s : State) : lofiLevels oneF s = oneF := by
  obtain ⟨-, htwo, -⟩ := powNamedProperties (s.draw 0 0) twoF oneF
  rw [lofiLevels, show pow32 (s.draw 0 0) twoF oneF = twoF from htwo, fsub_finite _ _ _ (by decide) (by decide)]
  decide

/-- Dividing by 1.0 is multiplying by it. -/
theorem fdiv_one_eq_fmul_one (d : Draw) (x : F32) : fdiv d x oneF = fmul d x oneF := by
  have hfinite : F32.isFinite oneF = true := by decide
  have hzero : F32.isZero oneF = false := by decide
  have hunits : F32.units oneF = 2 ^ 149 := by decide
  simp [fdiv, fmul, not_nan_of_finite hfinite, not_inf_of_finite hfinite, hzero, hunits]

theorem fround_not_nan (d : Draw) {x : F32} (h : F32.isNaN x = false) : F32.isNaN (fround d x) = false := by
  obtain ⟨-, hinf, hfinite⟩ := roundIsExactTiesAway d x
  cases hx : F32.isInf x with
  | true => rw [hinf hx, h]
  | false =>
    obtain ⟨-, hfin, -⟩ := hfinite ((F32.isFinite_iff x).mpr ⟨h, hx⟩)
    exact not_nan_of_finite hfin

/-- With the levels 1.0 multiplying and dividing keep the value, and `ROUND` alone is left. -/
theorem lofiQuantize_one {x : F32} (h : F32.isNaN x = false) (i : Nat) (s : State) :
    lofiQuantize oneF x i s = fround (s.draw i 3) x := by
  rw [lofiQuantize, fmul_one _ h, fdiv_one_eq_fmul_one, fmul_one _ (fround_not_nan _ h)]

/-- Settles O41: every iteration is fresh, since 1 divides every index. -/
theorem lofiOneBitIsRound : Obligations.LofiOneBitIsRound := by
  unfold Obligations.LofiOneBitIsRound
  intro s hp hn
  refine ⟨_, execLofi_eq oneF oneF s, fun i hi hnan => ?_⟩
  have hfresh : lofiFresh oneF i s = true :=
    (lofiFresh_integral_iff s (by omega) le_rfl (by decide) (by decide)).mpr (Nat.mod_one i)
  rw [State.setStatus_readOut, State.nextDraws_readOut, lofiLoop_readOut _ _ _ hi, if_pos hfresh,
    (lofiSample_body _ oneF).readIn s hp i i hi.le hi, lofiLevels_one, lofiQuantize_one hnan]

end Sys2Proof.Machine
end

section
/-! PROOFS. The copy and the queries (spec/46_copy_and_access.md): `COPY` moves every cell bit for bit (R221), a second
`COPY` finds nothing to change (R222), and what the two queries return (R223, R224). -/

namespace Sys2Proof.Machine

/-! ### The output cells (spec/46_copy_and_access.md R221) -/

/-- After the block an output cell holds the input cell the command found at its index. -/
theorem copyLoop_readOut {s : State} (hp : s.Placed) {i : Nat} (hi : i < s.cfgN) :
    (forSamples copySample s.cfgN s).readOut i = s.readIn i := by
  rw [copySample_body.readOut_done s s.cfgN i hi, copySample, writeOut_readOut_same,
    copySample_body.readIn s hp i i hi.le hi]

/-- Settles O42: cell by cell, and no command writes the input region. -/
theorem copyMovesBits : Obligations.CopyMovesBits := by
  unfold Obligations.CopyMovesBits
  intro s hp
  refine ⟨_, execCopy_eq s, rfl, ?_, noCommandWritesTheInput .copy s _ hp (execCopy_eq s)⟩
  rw [State.outCells, State.inCells, State.setStatus_cfgN, (copySample_body.loop s s.cfgN le_rfl).cfgN]
  exact List.map_congr_left fun i hi => copyLoop_readOut hp (List.mem_range.mp hi)

/-! ### A second copy (spec/46_copy_and_access.md R222) -/

/-- Writing to an output cell what it holds changes nothing, memory being canonical. -/
theorem writeOut_readOut (s : State) (i : Nat) (hw : Memory.wf s.mem = true) : s.writeOut i (s.readOut i) = s :=
  congrArg s.setMem (writeWord_readWord s.mem (s.outAddr i) hw)

/-- Where the output cells hold the input cells already, the loop changes nothing. -/
theorem copyLoop_of_copied {s : State} (hw : Memory.wf s.mem = true) (n : Nat)
    (h : ∀ i < n, s.readOut i = s.readIn i) : forSamples copySample n s = s := by
  refine forSamples_induct copySample (fun _ t => t = s) n s rfl fun i t hi ht => ?_
  rw [ht, copySample, ← h i hi, writeOut_readOut s i hw]

/-- Settles O43: the first `COPY` leaves canonical memory, the cells copied and `STATUS` = 0. -/
theorem copyTwiceIsCopyOnce : Obligations.CopyTwiceIsCopyOnce := by
  unfold Obligations.CopyTwiceIsCopyOnce
  intro s t hp hw h
  obtain rfl : (forSamples copySample s.cfgN s).setStatus statusOk = t := Host.Outcome.next.inj h
  have hloop : Effect s (forSamples copySample s.cfgN s) := copySample_body.loop s s.cfgN le_rfl
  have hsecond := copyLoop_of_copied (s := (forSamples copySample s.cfgN s).setStatus statusOk) (hloop.wf hw) s.cfgN
    fun i hi => (copyLoop_readOut hp hi).trans (hloop.readIn hp i hi).symm
  refine (execCopy_eq _).trans ?_
  rw [State.setStatus_cfgN, hloop.cfgN, hsecond]
  rfl

/-! ### The queries (spec/46_copy_and_access.md R223, R224) -/

theorem execGetin_eq (s : State) : execGetin s = .next ((s.setResult s.inBase).setStatus statusOk) := rfl

theorem execGetout_eq (s : State) : execGetout s = .next ((s.setResult s.outBase).setStatus statusOk) := rfl

/-- Settles O44: a query writes `RESULT` and completes. -/
theorem queriesReturnTheBases : Obligations.QueriesReturnTheBases := by
  unfold Obligations.QueriesReturnTheBases
  intro s
  exact ⟨execGetin_eq s, execGetout_eq s⟩

end Sys2Proof.Machine
end

section
/-! PROOFS. The exceptions (spec/60_exceptions.md): the one error a command can raise is the gain count of `EQ7`, so every
other command succeeds from every state (R234). -/

namespace Sys2Proof.Machine

/-- An outcome that ends in `STATUS <- OK` completes with `STATUS` = 0. -/
theorem completes_of_statusOk {o : Host.Outcome State Fault Refusal} {u : State} (h : o = .next (u.setStatus statusOk)) :
    Completes o fun t => t.status = 0 :=
  ⟨_, h, u.setStatus_status statusOk⟩

/-- Settles O49: command by command, each ends in `STATUS <- OK`; `EQ7` does because it has its seven gains. -/
theorem legalCommandsAlwaysSucceed : Obligations.LegalCommandsAlwaysSucceed := by
  unfold Obligations.LegalCommandsAlwaysSucceed
  intro i s hgains
  cases i with
  | pshift pf => exact completes_of_statusOk (execPshift_eq pf s)
  | bass db => exact completes_of_statusOk (execBass_eq db s)
  | eq7 gains => exact completes_of_statusOk (exec_eq7_seven (hgains gains rfl))
  | lofi bd dsf => exact completes_of_statusOk (execLofi_eq bd dsf s)
  | copy => exact completes_of_statusOk (execCopy_eq s)
  | getin => exact completes_of_statusOk (execGetin_eq s)
  | getout => exact completes_of_statusOk (execGetout_eq s)

end Sys2Proof.Machine
end

section
/-! PROOFS. Reset and hazards (spec/70_reset_and_hazards.md): what a reset answers where it does not construct, that
nothing else runs unless the engine is `Alive`, destruction, the idle engine and the host's reads. -/

namespace Sys2Proof.Machine

section
variable {s : State} {moves : List HostMove}

/-! ### A move of the host -/

/-- A step of an engine whose host has a move to make. -/
theorem step_cons {m : HostMove} (hm : s.inbox = m :: moves) : step s = hostMove exec m (s.setInbox moves) := by
  rw [step, hm]

/-- Every move but a reset is behind the one test of `LIVE`. -/
theorem hostMove_not_alive {run : Instr → State → Host.Outcome State Fault Refusal} {m : HostMove}
    (hl : s.live ≠ .alive) (hm : ∀ n r place, m ≠ .reset n r place) : hostMove run m s = .refused .notAlive := by
  cases m with
  | reset n r place => exact absurd rfl (hm n r place)
  | destroy | packet | write | read | forward | readStatus | readResult => exact if_neg hl

/-- Settles O9: the test of `LIVE` comes first, and the decoder finds the packet too short. -/
theorem nothingRunsUnlessAlive : Obligations.NothingRunsUnlessAlive := by
  unfold Obligations.NothingRunsUnlessAlive
  refine ⟨fun s m moves hl hin hm => ?_, fun s ws moves hl hin hd => ?_⟩
  · rw [step_cons hin]
    exact hostMove_not_alive hl hm
  · rw [step_packet hl hin, deliver, hd]

/-- Settles O10: a step of an empty inbox is no move. -/
theorem idleEngineHoldsItsState : Obligations.IdleEngineHoldsItsState := by
  unfold Obligations.IdleEngineHoldsItsState
  intro s hin
  rw [step, hin]

/-- Settles O13: the one test of `LIVE` decides between the two outcomes. -/
theorem destroyEndsTheLife : Obligations.DestroyEndsTheLife := by
  unfold Obligations.DestroyEndsTheLife
  intro s moves hin
  exact step_cons hin

/-! ### Reading the registers (spec/70_reset_and_hazards.md R276) -/

theorem step_readStatus (hl : s.live = .alive) (hm : s.inbox = .readStatus :: moves) :
    step s = .next ((s.setInbox moves).observe (.status s.status)) := by
  rw [step_cons hm]
  exact if_pos hl

theorem step_readResult (hl : s.live = .alive) (hm : s.inbox = .readResult :: moves) :
    step s = .next ((s.setInbox moves).observe (.result s.result)) := by
  rw [step_cons hm]
  exact if_pos hl

/-- Settles O20: each read is `observe` of what was read; a cell address passes the test of an access. -/
theorem hostReadsReport : Obligations.HostReadsReport := by
  unfold Obligations.HostReadsReport
  intro s moves hl
  refine ⟨fun i addr hi haddr hm => ?_, step_readStatus hl, step_readResult hl⟩
  exact (step_read hl hm).trans (if_pos ((accessOk_iff_cell s addr 4).mpr ⟨rfl, i, hi, haddr⟩))

/-! ### A reset that does not construct (R260, R261, spec/60_exceptions.md R233) -/

/-- The reset arguments with no meaning (R261): what is not finite is infinite or NaN. -/
theorem resetArgsOk_eq_false_iff (n : Nat) (r : F32) :
    resetArgsOk n r = false ↔
      n = 0 ∨ 16777216 < n ∨ F32.isZero r = true ∨ F32.neg r = true ∨ F32.isInf r = true ∨ F32.isNaN r = true := by
  rw [← Bool.not_eq_true, resetArgsOk_iff, F32.isFinite_iff, Config.maxBufferSize]
  simp only [not_and_or, not_le, Nat.lt_one_iff, Bool.not_eq_false]
  tauto

variable {n : Nat} {r : F32} {place : Option (Word × Word)}

theorem hostReset_not_unborn (hl : s.live ≠ .unborn) : hostReset n r place s = .refused .alreadyConstructed := if_pos hl

/-- On an unborn engine the arguments are tested next, and only that test gives this refusal. -/
theorem hostReset_badArguments_iff (hl : s.live = .unborn) :
    hostReset n r place s = .refused .badResetArguments ↔ resetArgsOk n r = false := by
  rw [hostReset.eq_def, if_neg (not_not_intro hl)]
  cases resetArgsOk n r with
  | false => exact iff_of_true rfl rfl
  | true =>
    refine iff_of_false (fun h => ?_) (by decide)
    rw [if_neg (by decide)] at h
    split at h
    · cases h
    · split at h <;> cases h

theorem hostReset_noRegions (hl : s.live = .unborn) (hr : resetArgsOk n r = true)
    (hp : ∀ b, place = some b → placementOk n b.1 b.2 = false) :
    hostReset n r place s = .fault .constructionFailure := by
  rw [hostReset.eq_def, if_neg (not_not_intro hl), hr, if_neg (by decide)]
  cases place with
  | none => rfl
  | some b => exact if_neg (Bool.eq_false_iff.mp (hp b rfl))

end

/-- Settles O12: the three tests of a reset, in their order. -/
theorem resetRefusals : Obligations.ResetRefusals := by
  unfold Obligations.ResetRefusals
  intro s n r place moves hin
  rw [← resetArgsOk_eq_false_iff, step_cons hin]
  exact ⟨hostReset_not_unborn (s := s.setInbox moves),
    fun hl => (hostReset_badArguments_iff (s := s.setInbox moves) hl).symm,
    hostReset_noRegions (s := s.setInbox moves)⟩

end Sys2Proof.Machine
end
